-- ==== Sys2Proof/Word.lean ====
section
/-! DEFINITION. The word types of the block (00_scope.md R6, R8: every register is an unsigned value of a fixed width). -/

namespace Sys2Proof

/-- A packet: `PKT_W = 32` bits (00_scope.md R6). -/
abbrev Packet := BitVec 32

/-- One byte of a packet (20_memory.md R29). -/
abbrev Byte := BitVec 8

/-- Two adjacent bytes of a packet, for the extended fields (43_queries.md R80, R82). -/
abbrev HalfPacket := BitVec 16

/-- The bit counter: `BC_W = 6` bits, holding 0 to 32 (00_scope.md R6, 10_state.md R16). -/
abbrev BitCount := BitVec 6

/-- The command vector `CMD[4:0]` (30_encoding.md R37). -/
abbrev CmdVec := BitVec 5

/-- A query select code `qsel[3:0]` (30_encoding.md R39). -/
abbrev QCode := BitVec 4

/-- The value on the read port `qdata[31:0]` (30_encoding.md R39). -/
abbrev QData := BitVec 32

end Sys2Proof
end

