-- ==== Sys2Proof/Config.lean ====
section
/-! DEFINITION. The parameters of the block, fixed when it is built (00_scope.md R6, R7). The spec leaves no value free, so this file holds no opaque constant. -/

namespace Sys2Proof

/-- The parameters of 00_scope.md R6, each with the default the spec takes. `PKT_W` and `BC_W` are fixed
and stand in the word types. No operation changes a parameter. -/
structure Config where
  /-- `TS_W`: width of a timestamp and of `last_edge`. -/
  tsW : Nat := 64
  /-- `DEV_PCT`: the window deviation in percent. -/
  devPct : Nat := 10
  /-- `NOM_ONE`, in microseconds. -/
  nomOne : Nat := 2250
  /-- `NOM_ZERO`, in microseconds. -/
  nomZero : Nat := 1125
  /-- `NOM_REPEAT`, in microseconds. -/
  nomRepeat : Nat := 100000
  /-- `NOM_AGC`; has no effect on any rule. -/
  nomAgc : Nat := 9000
  /-- `NOM_SPACE`; has no effect on any rule. -/
  nomSpace : Nat := 4500
  deriving DecidableEq, Repr

/-- The parameters at the spec's defaults (00_scope.md R6). -/
def Config.default : Config := {}

/-- The period `2^TS_W` at which timestamps wrap (30_encoding.md R38). -/
def Config.tsMod (c : Config) : Nat := 2 ^ c.tsW

/-- The constraint of 00_scope.md R7 on `TS_W`: every interval of every window can be represented. The block
does not check it (70_reset_and_hazards.md R104); statements that need it take it as a premise. -/
def Config.supported (c : Config) : Bool :=
  decide (c.nomRepeat * (100 + c.devPct) / 100 < c.tsMod)

end Sys2Proof
end

