-- ==== Sys2Proof/Syntax.lean ====
section
/-! DEFINITION. The instructions (one constructor per row of spec/opcode_table.json) and the encoded lines the host presents. -/

namespace Sys2Proof

/-- The operations a host applies to the block: the six commands of 30_encoding.md R42 and the queries of
R43, in the table's order. -/
inductive Instr where
  /-- RESET (70_reset_and_hazards.md R97). -/
  | reset
  /-- EDGE with its timestamp operand `t`, in microseconds (41_edge.md R57, 30_encoding.md R38). -/
  | edge (t : Nat)
  /-- ENABLE (42_control.md R67). -/
  | enable
  /-- DISABLE (42_control.md R68). -/
  | disable
  /-- CLEAR (42_control.md R69). -/
  | clear
  /-- NOP (42_control.md R70). -/
  | nop
  /-- STATE, code 0x0 (43_queries.md R72). -/
  | qState
  /-- PROC_EN, code 0x1 (R73). -/
  | qProcEn
  /-- RAW_PACKET, code 0x2 (R74). -/
  | qRawPacket
  /-- ADDRESS, code 0x3 (R79). -/
  | qAddress
  /-- EXT_ADDRESS, code 0x4 (R80). -/
  | qExtAddress
  /-- DATA, code 0x5 (R81). -/
  | qData
  /-- EXT_DATA, code 0x6 (R82). -/
  | qExtData
  /-- ADDR_VALID, code 0x7 (R83). -/
  | qAddrValid
  /-- DATA_VALID, code 0x8 (R84). -/
  | qDataValid
  /-- BIT_COUNT, code 0x9 (R75). -/
  | qBitCount
  /-- COMPLETED_PACKET, code 0xA (R76). -/
  | qCompletedPacket
  /-- DONE_PACKET, code 0xB (R77). -/
  | qDonePacket
  /-- DONE, code 0xC (R78). -/
  | qDone
  /-- RESERVED_Q, code 0xD (R86). -/
  | qReservedD
  /-- RESERVED_Q, codes 0xE and 0xF; `low` is bit 0 of the code, which the row leaves free (R86). -/
  | qReservedEF (low : Bool)
  deriving DecidableEq, Repr

/-- One encoded line of what the host presents (30_encoding.md R46, R48): the numbers on the ports, not yet
checked against the ports' widths. -/
inductive Line where
  /-- One clock cycle: the pair `(CMD[4:0], edge_time)` of R48. -/
  | cycle (cmd : Nat) (edgeTime : Nat)
  /-- A query: the host reads `qdata` at this code; it takes no cycle (R39). -/
  | query (qsel : Nat)
  deriving DecidableEq, Repr

/-- Why a line is no line of the block: a number that does not fit its port (log entry 7). -/
inductive DecodeError where
  /-- `CMD` has five bits (30_encoding.md R37). -/
  | cmdTooWide
  /-- `edge_time` has `TS_W` bits (R38; R46: `0 <= time < 2^TS_W`). -/
  | timeTooWide
  /-- `qsel` has four bits (R39). -/
  | qselTooWide
  deriving DecidableEq, Repr

end Sys2Proof
end

