-- ==== Sys2Proof/WellFormed.lean ====
section
/-! DEFINITION. Which instructions, and which lists of instructions of one line, are well formed. -/

namespace Sys2Proof

/-- An instruction is well formed when its operand fits its port: EDGE's timestamp is below `2^TS_W`
(30_encoding.md R38, R46). No other instruction has a constrained operand. -/
def wellFormed (c : Config) : Instr → Bool
  | .edge t => decide (t < c.tsMod)
  | .reset | .enable | .disable | .clear | .nop
  | .qState | .qProcEn | .qRawPacket | .qAddress | .qExtAddress | .qData | .qExtData
  | .qAddrValid | .qDataValid | .qBitCount | .qCompletedPacket | .qDonePacket | .qDone
  | .qReservedD | .qReservedEF _ => true

/-- The place of a command in a bundle of several (30_encoding.md R44: EDGE, CLEAR, ENABLE, DISABLE);
0 for what never shares a bundle: RESET overrides every other command, NOP is the absence of one, and a
query is no command (R39). -/
def bundleRank : Instr → Nat
  | .edge _ => 1
  | .clear => 2
  | .enable => 3
  | .disable => 4
  | .reset | .nop
  | .qState | .qProcEn | .qRawPacket | .qAddress | .qExtAddress | .qData | .qExtData
  | .qAddrValid | .qDataValid | .qBitCount | .qCompletedPacket | .qDonePacket | .qDone
  | .qReservedD | .qReservedEF _ => 0

/-- What one line may select: one instruction, or two or more of EDGE, CLEAR, ENABLE, DISABLE, each at most
once and in the order of 30_encoding.md R44. So no line holds two EDGEs (93_implementation_defined.md U4). -/
def bundleWellFormed (c : Config) (ops : List Instr) : Bool :=
  ops.all (wellFormed c) &&
    (decide (ops.length = 1) ||
      (decide (2 ≤ ops.length) && decide ((0 :: ops.map bundleRank).Pairwise (· < ·))))

end Sys2Proof
end

