-- ==== Sys2Proof/Decode.lean ====
section
/-! DEFINITION. The decoder (from the numbers on the ports to instructions) and, after it, the encoder. -/

namespace Sys2Proof

/-- A row of spec/opcode_table.json: a word `v` selects the row's instruction when `v &&& mask = value`. -/
structure Row (w : Nat) where
  mask  : BitVec w
  value : BitVec w
  instr : Instr
  deriving DecidableEq, Repr

/-- A word matches a row of the opcode table (30_encoding.md R42, R43). -/
def Row.matched {w : Nat} (r : Row w) (v : BitVec w) : Bool := v &&& r.mask == r.value

/-- The command rows of 30_encoding.md R42 for operand `t`, in the order in which R44 applies them. -/
def cmdRows (t : Nat) : List (Row 5) :=
  [⟨0b10000#5, 0b10000#5, .reset⟩,
   ⟨0b10001#5, 0b00001#5, .edge t⟩,
   ⟨0b11000#5, 0b01000#5, .clear⟩,
   ⟨0b10010#5, 0b00010#5, .enable⟩,
   ⟨0b10100#5, 0b00100#5, .disable⟩,
   ⟨0b11111#5, 0b00000#5, .nop⟩]

/-- The query rows of 30_encoding.md R43; `low` is bit 0 of the code, the operand of the last row. -/
def queryRows (low : Bool) : List (Row 4) :=
  [⟨0xF#4, 0x0#4, .qState⟩,
   ⟨0xF#4, 0x1#4, .qProcEn⟩,
   ⟨0xF#4, 0x2#4, .qRawPacket⟩,
   ⟨0xF#4, 0x3#4, .qAddress⟩,
   ⟨0xF#4, 0x4#4, .qExtAddress⟩,
   ⟨0xF#4, 0x5#4, .qData⟩,
   ⟨0xF#4, 0x6#4, .qExtData⟩,
   ⟨0xF#4, 0x7#4, .qAddrValid⟩] ++
  [⟨0xF#4, 0x8#4, .qDataValid⟩,
   ⟨0xF#4, 0x9#4, .qBitCount⟩,
   ⟨0xF#4, 0xA#4, .qCompletedPacket⟩,
   ⟨0xF#4, 0xB#4, .qDonePacket⟩,
   ⟨0xF#4, 0xC#4, .qDone⟩,
   ⟨0xF#4, 0xD#4, .qReservedD⟩,
   ⟨0xE#4, 0xE#4, .qReservedEF low⟩]

/-- The commands a vector selects: every row whose bits it has (30_encoding.md R42: "all of them apply"),
in the order of R44. RESET's row matches alone, since the others need bit 4 clear. -/
def decodeCmd (v : CmdVec) (t : Nat) : List Instr :=
  ((cmdRows t).filter (·.matched v)).map (·.instr)

/-- The query a code selects (30_encoding.md R39, R43). -/
def decodeQuery (q : QCode) : List Instr :=
  ((queryRows (q.getLsbD 0)).filter (·.matched q)).map (·.instr)

/-- Decode a line into its instructions, in the order in which they apply; reject, by name, a number that
does not fit its port. Every one of the 32 vectors and 16 codes is legal (30_encoding.md R45). -/
def decodeLine (c : Config) : Line → Except DecodeError (List Instr)
  | .cycle cmd t =>
    if 2 ^ 5 ≤ cmd then .error .cmdTooWide
    else if c.tsMod ≤ t then .error .timeTooWide
    else .ok (decodeCmd (BitVec.ofNat 5 cmd) t)
  | .query q =>
    if 2 ^ 4 ≤ q then .error .qselTooWide
    else .ok (decodeQuery (BitVec.ofNat 4 q))

/-- The line a number of spec/opcode_table.json stands for. The table numbers two formats, `CMD` and
`QUERY`, from bit 0, so a number alone does not say which it is; this reading is the model's (log entry 8).
At most four bits are a query code. A whole byte below 16 is a command when it is the vector of a single
command (30_encoding.md R48) and a query code otherwise. Everything else is a command: `CMD` in the first byte,
`edge_time` in the bits above it. -/
def tableLine (nbits w : Nat) : Line :=
  if nbits ≤ 4 then .query w
  else if nbits = 8 ∧ w < 16 ∧ w ∉ [0, 1, 2, 4, 8] then .query w
  else .cycle (w % 2 ^ 8) (w / 2 ^ 8)

/-- The instruction the decoder reads from a number of the opcode table; for a vector of several commands,
the one that applies first. -/
def decodeTableWord (nbits w : Nat) : Option Instr :=
  match decodeLine Config.default (tableLine nbits w) with
  | .ok ops => ops.head?
  | .error _ => none

/-! The encoder, written from the same tables. -/

/-- The code of a query (30_encoding.md R43); none for a command. -/
def queryCode : Instr → Option Nat
  | .qState => some 0x0
  | .qProcEn => some 0x1
  | .qRawPacket => some 0x2
  | .qAddress => some 0x3
  | .qExtAddress => some 0x4
  | .qData => some 0x5
  | .qExtData => some 0x6
  | .qAddrValid => some 0x7
  | .qDataValid => some 0x8
  | .qBitCount => some 0x9
  | .qCompletedPacket => some 0xA
  | .qDonePacket => some 0xB
  | .qDone => some 0xC
  | .qReservedD => some 0xD
  | .qReservedEF low => some (if low then 0xF else 0xE)
  | .reset | .edge _ | .enable | .disable | .clear | .nop => none

/-- The bit of `CMD` that selects a command (30_encoding.md R37, R48); 0 for NOP and for a query. -/
def commandBits : Instr → Nat
  | .reset => 0b10000
  | .clear => 0b01000
  | .disable => 0b00100
  | .enable => 0b00010
  | .edge _ => 0b00001
  | .nop
  | .qState | .qProcEn | .qRawPacket | .qAddress | .qExtAddress | .qData | .qExtData
  | .qAddrValid | .qDataValid | .qBitCount | .qCompletedPacket | .qDonePacket | .qDone
  | .qReservedD | .qReservedEF _ => 0

/-- The `edge_time` of a bundle: its EDGE's time, or 0 when it has no EDGE (30_encoding.md R48). -/
def bundleTime : List Instr → Nat
  | [] => 0
  | .edge t :: _ => t
  | _ :: ops => bundleTime ops

/-- Encode the command items of one line: the bits of all of them (30_encoding.md R37, R48). -/
def encodeBundle (ops : List Instr) : Line :=
  .cycle (ops.foldl (fun v i => v ||| commandBits i) 0) (bundleTime ops)

/-- Encode one instruction: a query as its code, a command as the bundle of itself. -/
def encode (i : Instr) : Line :=
  match queryCode i with
  | some q => .query q
  | none => encodeBundle [i]

/-- Encode what one line selects: one instruction, or a bundle of commands. -/
def encodeOps : List Instr → Line
  | [i] => encode i
  | ops => encodeBundle ops

end Sys2Proof
end

