-- ==== Sys2Proof/Machine/State.lean ====
section
/-! DEFINITION. The machine's state as plain data, the reasons to stop, and the state after reset. -/

namespace Sys2Proof.Machine

/-- The state tuple S of 10_state.md R12: exactly the block's registers. -/
structure Regs where
  /-- `proc_en`: true is IDLE_ENABLED, false is DISABLED (R14). -/
  procEn : Bool
  /-- `acc_packet` (R15). -/
  accPacket : Packet
  /-- `bit_count` (R16). -/
  bitCount : BitCount
  /-- `completed_packet` (R17). -/
  completedPacket : Packet
  /-- `last_edge` (R18), a timestamp below `2^TS_W` (log entry 5). -/
  lastEdge : Nat
  /-- `done`, the completion flag (R19). -/
  done : Bool
  /-- `done_packet` (R20). -/
  donePacket : Packet
  deriving DecidableEq, Repr

/-- The machine: the block's registers, and around them what is no register of the block. -/
structure State where
  /-- The parameters this block was built with (00_scope.md R6; log entry 4). No step changes them. -/
  cfg : Config
  /-- The block's registers (10_state.md R12). -/
  regs : Regs
  /-- What the host presents next, oldest first (log entry 1). -/
  stim : List Line
  deriving DecidableEq, Repr

/-- The faults of the block: none. "No operation raises an exception, and the block has no cause codes, no
fault register and no error output" (60_exceptions.md R87), so the type has no constructor. -/
inductive Fault where
  deriving DecidableEq, Repr

/-- Why the model gives no next state. -/
inductive Refusal where
  /-- Raised by exec's arms for an instruction that has no meaning yet; no arm does so now. Safe. -/
  | notModelled (mnemonic : String)
  /-- Raised by `runLine` for a line with a number that does not fit its port, which no host can present
  (30_encoding.md R37, R38, R39, R46; log entry 7). Safe: the machine stops where hardware has no such input. -/
  | malformedLine (e : DecodeError)
  deriving DecidableEq, Repr

/-- The registers after reset (10_state.md R23, 70_reset_and_hazards.md R97). -/
def Regs.reset : Regs where
  procEn := true
  accPacket := 0#32
  bitCount := 0#6
  completedPacket := 0#32
  lastEdge := 0
  done := false
  donePacket := 0#32

/-- A block built with the parameters `c`, right after reset: nothing presented (log entry 1). -/
def State.resetOf (c : Config) : State where
  cfg := c
  regs := Regs.reset
  stim := []

/-- The machine right after reset, at the spec's default parameters (00_scope.md R6). -/
def State.reset : State := State.resetOf Config.default

end Sys2Proof.Machine
end

