-- ==== Sys2Proof/Machine/Operands.lean ====
section
/-! DEFINITION. The operand forms: EDGE's timestamp, the interval, and the fields of a packet. -/

namespace Sys2Proof.Machine

/-- EDGE's operand `edge_time[TS_W-1:0]` (30_encoding.md R38). -/
def edgeOperand (c : Config) (t : Nat) : Nat := t % c.tsMod

/-- The interval `(t - last_edge) mod 2^TS_W`, on integers (41_edge.md R59). -/
def interval (c : Config) (t last : Nat) : Nat := (((t : Int) - (last : Int)) % (c.tsMod : Int)).toNat

/-- Byte 0 of a packet, bits 31:24 (20_memory.md R29; the address, 43_queries.md R79). -/
def byte0 (p : Packet) : Byte := p.extractLsb 31 24

/-- Byte 1 of a packet, bits 23:16 (20_memory.md R29). -/
def byte1 (p : Packet) : Byte := p.extractLsb 23 16

/-- Byte 2 of a packet, bits 15:8 (20_memory.md R29; the data byte, 43_queries.md R81, 90_conflicts.md C2). -/
def byte2 (p : Packet) : Byte := p.extractLsb 15 8

/-- Byte 3 of a packet, bits 7:0 (20_memory.md R29). -/
def byte3 (p : Packet) : Byte := p.extractLsb 7 0

/-- The extended address, bits 31:16 (43_queries.md R80, 90_conflicts.md C8). -/
def upperHalf (p : Packet) : HalfPacket := p.extractLsb 31 16

/-- The extended data, bits 15:0 (43_queries.md R82). -/
def lowerHalf (p : Packet) : HalfPacket := p.extractLsb 15 0

/-- `zext_32` of a `w`-bit field (00_scope.md R8). -/
def zext {w : Nat} (v : BitVec w) : QData := v.setWidth 32

/-- `zext_32` of a one-bit value. -/
def zextBit (b : Bool) : QData := zext (BitVec.ofBool b)

end Sys2Proof.Machine
end

