-- ==== Sys2Proof/Machine/Flags.lean ====
section
/-! DEFINITION. The block's one-bit status values that are computed (10_state.md R21); `proc_en` and `done` are stored. -/

namespace Sys2Proof.Machine

/-- Address valid: byte 1 is the complement of byte 0 (43_queries.md R83). -/
def addrValid (p : Packet) : Bool := byte1 p == ~~~ byte0 p

/-- Data valid: byte 3 is the complement of byte 2 (43_queries.md R84). -/
def dataValid (p : Packet) : Bool := byte3 p == ~~~ byte2 p

/-- The 32-bit test of an EDGE, on the count after its bit (41_edge.md R61). -/
def packetFull (n : BitCount) : Bool := n == 32#6

end Sys2Proof.Machine
end

