-- ==== Sys2Proof/Machine/Ops.lean ====
section
/-! DEFINITION. The named operations over the registers that the meanings share. The block has no memory (20_memory.md R27) and takes no exception (60_exceptions.md R91), so there is no memory operation and no exception entry or return here; the completion, its only interrupt-like event (R89), is `Regs.emitComplete`. -/

namespace Sys2Proof.Machine

/-- Shift one bit in at bit 0; bit 31 is lost (41_edge.md R60, 20_memory.md R28). -/
def Regs.shiftIn (b : Bool) (r : Regs) : Regs :=
  { r with accPacket := (r.accPacket <<< 1) ||| zextBit b }

/-- Count one bit (41_edge.md R60). -/
def Regs.countBit (r : Regs) : Regs := { r with bitCount := r.bitCount + 1#6 }

/-- The end of a packet: the count to 0 and the block to DISABLED (41_edge.md R61, R62). -/
def Regs.endPacket (r : Regs) : Regs := { r with bitCount := 0#6, procEn := false }

/-- Keep the packet in `completed_packet` (41_edge.md R61). -/
def Regs.storeCompleted (r : Regs) : Regs := { r with completedPacket := r.accPacket }

/-- Emit `Complete(acc_packet)`: raise the completion flag with the packet's value (41_edge.md R61, R62;
30_encoding.md R44; 60_exceptions.md R89). -/
def Regs.emitComplete (r : Regs) : Regs := { r with done := true, donePacket := r.accPacket }

/-- Lower the completion flag; `done_packet` keeps its value (30_encoding.md R44, 10_state.md R19, R20). -/
def Regs.lowerDone (r : Regs) : Regs := { r with done := false }

/-- Record the time of an edge (41_edge.md R64). -/
def Regs.recordEdge (t : Nat) (r : Regs) : Regs := { r with lastEdge := t }

/-- Put the packet state machine in a state: true IDLE_ENABLED, false DISABLED (10_state.md R14). -/
def Regs.setProcEn (en : Bool) (r : Regs) : Regs := { r with procEn := en }

/-- Empty the packet being assembled (42_control.md R69). -/
def Regs.clearPacket (r : Regs) : Regs := { r with bitCount := 0#6, accPacket := 0#32 }

/-- Every register to its reset value (70_reset_and_hazards.md R97). -/
def Regs.applyReset (r : Regs) : Regs :=
  { r with
    procEn := true
    accPacket := 0#32
    bitCount := 0#6
    completedPacket := 0#32
    lastEdge := 0
    done := false
    donePacket := 0#32 }

/-- Apply an operation to the registers; parameters and the lines to come stay. -/
def State.mapRegs (f : Regs → Regs) (s : State) : State := { s with regs := f s.regs }

/-- What a clock cycle does before its commands: the completion flag of the cycle before falls
(30_encoding.md R44: `done <- 0` unless this cycle emits; log entry 6). -/
def State.beginCycle (s : State) : State := s.mapRegs Regs.lowerDone

end Sys2Proof.Machine
end

