-- ==== Sys2Proof/Machine/Control.lean ====
section
/-! DEFINITION. ENABLE, DISABLE, CLEAR and NOP (42_control.md), and RESET (70_reset_and_hazards.md R97). -/

namespace Sys2Proof.Machine

/-- RESET (70_reset_and_hazards.md R97). -/
def execReset (s : State) : Host.Outcome State Fault Refusal := .next (s.mapRegs Regs.applyReset)

/-- ENABLE (42_control.md R67). -/
def execEnable (s : State) : Host.Outcome State Fault Refusal := .next (s.mapRegs (Regs.setProcEn true))

/-- DISABLE (42_control.md R68). -/
def execDisable (s : State) : Host.Outcome State Fault Refusal := .next (s.mapRegs (Regs.setProcEn false))

/-- CLEAR (42_control.md R69). -/
def execClear (s : State) : Host.Outcome State Fault Refusal := .next (s.mapRegs Regs.clearPacket)

/-- NOP (42_control.md R70): its one effect is that `done` falls. -/
def execNop (s : State) : Host.Outcome State Fault Refusal := .next (s.mapRegs Regs.lowerDone)

end Sys2Proof.Machine
end

