-- ==== Sys2Proof/Machine/Classifier.lean ====
section
/-! DEFINITION. The timing-window classifier (40_classifier.md): a pure function from an interval to a class. -/

namespace Sys2Proof.Machine

/-- The four classes of 40_classifier.md R49. -/
inductive EdgeClass where
  /-- ONE, a logical 1. -/
  | one
  /-- ZERO, a logical 0. -/
  | zero
  /-- REPEAT, a repeat code. -/
  | repeatCode
  /-- UNCLASSIFIED: noise, no match. -/
  | unclassified
  deriving DecidableEq, Repr

/-- Closed window membership, exact on integers; `100 - DEV_PCT` may be negative (40_classifier.md R50). -/
def inWin (c : Config) (iv nom : Nat) : Bool :=
  decide (100 * (iv : Int) ≥ (nom : Int) * (100 - (c.devPct : Int))) &&
    decide (100 * (iv : Int) ≤ (nom : Int) * (100 + (c.devPct : Int)))

/-- The truncated deviation `floor(nom * DEV_PCT / 100)` of 40_classifier.md R51. -/
def winDev (c : Config) (nom : Nat) : Nat := nom * c.devPct / 100

/-- `LO(nom)` of 40_classifier.md R51, for `DEV_PCT <= 100`. -/
def winLo (c : Config) (nom : Nat) : Nat := nom - winDev c nom

/-- `HI(nom)` of 40_classifier.md R51. -/
def winHi (c : Config) (nom : Nat) : Nat := nom + winDev c nom

/-- The classifier: the first window that holds the interval, in the order ONE, ZERO, REPEAT
(40_classifier.md R54, R55). -/
def classify (c : Config) (iv : Nat) : EdgeClass :=
  if inWin c iv c.nomOne then .one
  else if inWin c iv c.nomZero then .zero
  else if inWin c iv c.nomRepeat then .repeatCode
  else .unclassified

end Sys2Proof.Machine
end

