-- ==== Sys2Proof/Machine/Edge.lean ====
section
/-! DEFINITION. EDGE and the bit-accumulation state machine (41_edge.md). -/

namespace Sys2Proof.Machine

/-- A data bit, and the completion when it is the 32nd (41_edge.md R60, R61). -/
def Regs.dataBit (b : Bool) (r : Regs) : Regs :=
  let r' := (r.shiftIn b).countBit
  if packetFull r'.bitCount then r'.endPacket.storeCompleted.emitComplete else r'

/-- A repeat code: a completion with the packet as it stands; `completed_packet` is not written
(41_edge.md R62, 90_conflicts.md C9). -/
def Regs.repeatCompletion (r : Regs) : Regs := r.endPacket.emitComplete

/-- What an interval's class does to the registers (41_edge.md R60 to R63). -/
def Regs.applyClass : EdgeClass → Regs → Regs
  | .one, r => r.dataBit true
  | .zero, r => r.dataBit false
  | .repeatCode, r => r.repeatCompletion
  | .unclassified, r => r

/-- EDGE at time `t` on the registers (41_edge.md R57): discarded while DISABLED (R58); else classified on the
interval since the last edge (R59), applied, and recorded (R64). -/
def Regs.edge (c : Config) (t : Nat) (r : Regs) : Regs :=
  if r.procEn then
    (r.applyClass (classify c (interval c (edgeOperand c t) r.lastEdge))).recordEdge (edgeOperand c t)
  else r

/-- EDGE (41_edge.md R57). -/
def execEdge (t : Nat) (s : State) : Host.Outcome State Fault Refusal :=
  .next (s.mapRegs (Regs.edge s.cfg t))

end Sys2Proof.Machine
end

