-- ==== Sys2Proof/Machine/Queries.lean ====
section
/-! DEFINITION. The queries (43_queries.md): the value of each, the read port `qdata`, and the query instructions. -/

namespace Sys2Proof.Machine

/-- STATE (43_queries.md R72). -/
def valState (r : Regs) : QData := zextBit r.procEn
/-- PROC_EN (R73). -/
def valProcEn (r : Regs) : QData := zextBit r.procEn
/-- RAW_PACKET (R74). -/
def valRawPacket (r : Regs) : QData := r.accPacket
/-- ADDRESS (R79). -/
def valAddress (r : Regs) : QData := zext (byte0 r.accPacket)
/-- EXT_ADDRESS (R80). -/
def valExtAddress (r : Regs) : QData := zext (upperHalf r.accPacket)
/-- DATA (R81). -/
def valData (r : Regs) : QData := zext (byte2 r.accPacket)
/-- EXT_DATA (R82). -/
def valExtData (r : Regs) : QData := zext (lowerHalf r.accPacket)
/-- ADDR_VALID (R83). -/
def valAddrValid (r : Regs) : QData := zextBit (addrValid r.accPacket)
/-- DATA_VALID (R84). -/
def valDataValid (r : Regs) : QData := zextBit (dataValid r.accPacket)
/-- BIT_COUNT (R75). -/
def valBitCount (r : Regs) : QData := zext r.bitCount
/-- COMPLETED_PACKET (R76). -/
def valCompletedPacket (r : Regs) : QData := r.completedPacket
/-- DONE_PACKET (R77). -/
def valDonePacket (r : Regs) : QData := r.donePacket
/-- DONE (R78). -/
def valDone (r : Regs) : QData := zextBit r.done
/-- The reserved codes read 0 in every state (R86). -/
def valReserved (_ : Regs) : QData := 0#32

/-- The status register map: the value the query with a code gives (10_state.md R22, 30_encoding.md R39). -/
def queryValue (q : QCode) (r : Regs) : QData :=
  match q.toNat with
  | 0x0 => valState r
  | 0x1 => valProcEn r
  | 0x2 => valRawPacket r
  | 0x3 => valAddress r
  | 0x4 => valExtAddress r
  | 0x5 => valData r
  | 0x6 => valExtData r
  | 0x7 => valAddrValid r
  | 0x8 => valDataValid r
  | 0x9 => valBitCount r
  | 0xA => valCompletedPacket r
  | 0xB => valDonePacket r
  | 0xC => valDone r
  | _ => valReserved r

/-- The read port `qdata[31:0]` while the input `qsel[3:0]` is at a code: in every state, the value of the query
with that code (30_encoding.md R39; log entry 3). -/
def State.qdata (q : QCode) (s : State) : QData := queryValue q s.regs

/-- What the host reads when it applies an operation: the value of a query, by its rule; a command answers
none. -/
def answer (i : Instr) (s : State) : Option QData :=
  match i with
  | .qState => some (valState s.regs)
  | .qProcEn => some (valProcEn s.regs)
  | .qRawPacket => some (valRawPacket s.regs)
  | .qAddress => some (valAddress s.regs)
  | .qExtAddress => some (valExtAddress s.regs)
  | .qData => some (valData s.regs)
  | .qExtData => some (valExtData s.regs)
  | .qAddrValid => some (valAddrValid s.regs)
  | .qDataValid => some (valDataValid s.regs)
  | .qBitCount => some (valBitCount s.regs)
  | .qCompletedPacket => some (valCompletedPacket s.regs)
  | .qDonePacket => some (valDonePacket s.regs)
  | .qDone => some (valDone s.regs)
  | .qReservedD => some (valReserved s.regs)
  | .qReservedEF _ => some (valReserved s.regs)
  | .reset | .edge _ | .enable | .disable | .clear | .nop => none

/-! The query instructions: "a query is a pure function of the state; it is not a step and changes nothing"
(00_scope.md R11, 20_memory.md R33). Its value is `answer`. -/

/-- STATE, code 0x0. -/
def execQState (s : State) : Host.Outcome State Fault Refusal := .next s
/-- PROC_EN, code 0x1. -/
def execQProcEn (s : State) : Host.Outcome State Fault Refusal := .next s
/-- RAW_PACKET, code 0x2. -/
def execQRawPacket (s : State) : Host.Outcome State Fault Refusal := .next s
/-- ADDRESS, code 0x3. -/
def execQAddress (s : State) : Host.Outcome State Fault Refusal := .next s
/-- EXT_ADDRESS, code 0x4. -/
def execQExtAddress (s : State) : Host.Outcome State Fault Refusal := .next s
/-- DATA, code 0x5. -/
def execQData (s : State) : Host.Outcome State Fault Refusal := .next s
/-- EXT_DATA, code 0x6. -/
def execQExtData (s : State) : Host.Outcome State Fault Refusal := .next s
/-- ADDR_VALID, code 0x7. -/
def execQAddrValid (s : State) : Host.Outcome State Fault Refusal := .next s
/-- DATA_VALID, code 0x8. -/
def execQDataValid (s : State) : Host.Outcome State Fault Refusal := .next s
/-- BIT_COUNT, code 0x9. -/
def execQBitCount (s : State) : Host.Outcome State Fault Refusal := .next s
/-- COMPLETED_PACKET, code 0xA. -/
def execQCompletedPacket (s : State) : Host.Outcome State Fault Refusal := .next s
/-- DONE_PACKET, code 0xB. -/
def execQDonePacket (s : State) : Host.Outcome State Fault Refusal := .next s
/-- DONE, code 0xC. -/
def execQDone (s : State) : Host.Outcome State Fault Refusal := .next s
/-- The reserved code 0xD (R86). -/
def execQReservedD (s : State) : Host.Outcome State Fault Refusal := .next s
/-- The reserved codes 0xE and 0xF (R86). -/
def execQReservedEF (_low : Bool) (s : State) : Host.Outcome State Fault Refusal := .next s

end Sys2Proof.Machine
end

