-- ==== Sys2Proof/Machine/Dispatch.lean ====
section
/-! DEFINITION. One arm per instruction: each a direct call of its meaning. -/

namespace Sys2Proof.Machine

-- The meaning of one operation on the state that the operations before it left (30_encoding.md R44).
def exec (i : Instr) (s : State) : Host.Outcome State Fault Refusal :=
  match i with
  -- commands (30_encoding.md R42)
  | .reset => Sys2Proof.Machine.execReset s
  | .edge t => Sys2Proof.Machine.execEdge t s
  | .enable => Sys2Proof.Machine.execEnable s
  | .disable => Sys2Proof.Machine.execDisable s
  | .clear => Sys2Proof.Machine.execClear s
  | .nop => Sys2Proof.Machine.execNop s
  -- queries (30_encoding.md R43)
  | .qState => Sys2Proof.Machine.execQState s
  | .qProcEn => Sys2Proof.Machine.execQProcEn s
  | .qRawPacket => Sys2Proof.Machine.execQRawPacket s
  | .qAddress => Sys2Proof.Machine.execQAddress s
  | .qExtAddress => Sys2Proof.Machine.execQExtAddress s
  | .qData => Sys2Proof.Machine.execQData s
  | .qExtData => Sys2Proof.Machine.execQExtData s
  | .qAddrValid => Sys2Proof.Machine.execQAddrValid s
  | .qDataValid => Sys2Proof.Machine.execQDataValid s
  | .qBitCount => Sys2Proof.Machine.execQBitCount s
  | .qCompletedPacket => Sys2Proof.Machine.execQCompletedPacket s
  | .qDonePacket => Sys2Proof.Machine.execQDonePacket s
  | .qDone => Sys2Proof.Machine.execQDone s
  | .qReservedD => Sys2Proof.Machine.execQReservedD s
  | .qReservedEF low => Sys2Proof.Machine.execQReservedEF low s

end Sys2Proof.Machine
end

