-- ==== Sys2Proof/Machine/Bundle.lean ====
section
/-! DEFINITION. Running one line: decode it and apply its operations in order (30_encoding.md R44). -/

namespace Sys2Proof.Machine

/-- Apply operations one after the other; each reads the state the one before it left
(20_memory.md R34). -/
def runOps : List Instr → State → Host.Outcome State Fault Refusal
  | [], s => .next s
  | i :: ops, s =>
    match exec i s with
    | .next t => runOps ops t
    | .fault f => .fault f
    | .refused r => .refused r

/-- A cycle lowers the completion flag before its commands (log entry 6); a query takes no cycle and lowers
nothing (30_encoding.md R39, 20_memory.md R33). -/
def presentLine : Line → State → State
  | .cycle _ _, s => s.beginCycle
  | .query _, s => s

/-- Run one line: its commands as one atomic bundle (30_encoding.md R44, 20_memory.md R32), or its query.
A line that does not fit the ports is refused by name (log entry 7). -/
def runLine (l : Line) (s : State) : Host.Outcome State Fault Refusal :=
  match decodeLine s.cfg l with
  | .error e => .refused (.malformedLine e)
  | .ok ops => runOps ops (presentLine l s)

/-- The line of a cycle in which the host presents nothing: no command bit set, NOP (42_control.md R70;
log entry 2). -/
def idleLine : Line := .cycle 0 0

/-- One clock cycle: the queries presented before its commands are answered on the registered state, which
they leave as it is, and take no cycle (30_encoding.md R39, 20_memory.md R34); then the bundle of the cycle is
applied, and the lines after it stay. So a step applies one bundle (00_scope.md R11; log entries 1 and 2). -/
def runCycle : List Line → State → Host.Outcome State Fault Refusal
  | [], s => runLine idleLine { s with stim := [] }
  | .cycle cmd t :: rest, s => runLine (.cycle cmd t) { s with stim := rest }
  | .query q :: rest, s =>
    match runLine (.query q) { s with stim := rest } with
    | .next s' => runCycle rest s'
    | .fault f => .fault f
    | .refused r => .refused r

end Sys2Proof.Machine
end

