-- ==== Sys2Proof/Machine/Step.lean ====
section
/-! DEFINITION. The step: one clock cycle of what the host presents. -/

namespace Sys2Proof.Machine

/-- One step: one clock cycle, which applies one bundle (00_scope.md R11, 70_reset_and_hazards.md R105). -/
def step (s : State) : Host.Outcome State Fault Refusal := runCycle s.stim s

/-- Present the instruction numbered `w` in the opcode table as the very next line; the lines already there
follow it (log entries 8 and 9). A query is answered by the next step before that step's bundle. -/
def State.withFetchWord (s : State) (nbits w : Nat) : State :=
  { s with stim := tableLine nbits w :: s.stim }

end Sys2Proof.Machine
end

