-- ==== Sys2Proof/Machine/Ports.lean ====
section
/-! DEFINITION. The output ports (30_encoding.md R36): functions of the registered state and of `qsel`. -/

namespace Sys2Proof.Machine

/-- The outputs of 30_encoding.md R36, at their port widths. -/
structure Outputs where
  qdata : QData
  procEn : Bool
  edgeSrcAttach : Bool
  done : Bool
  donePacket : Packet
  rawPacket : Packet
  bitCount : BitCount
  completedPacket : Packet
  address : Byte
  extAddress : HalfPacket
  data : Byte
  extData : HalfPacket
  addrValid : Bool
  dataValid : Bool
  deriving DecidableEq, Repr

/-- The edge-source attach output, a level (30_encoding.md R41). -/
def State.edgeSrcAttach (s : State) : Bool := s.regs.procEn

/-- What the output ports show in a state while `qsel` is at a code (30_encoding.md R36, R40). -/
def State.outputs (qsel : QCode) (s : State) : Outputs where
  qdata := s.qdata qsel
  procEn := s.regs.procEn
  edgeSrcAttach := s.edgeSrcAttach
  done := s.regs.done
  donePacket := s.regs.donePacket
  rawPacket := s.regs.accPacket
  bitCount := s.regs.bitCount
  completedPacket := s.regs.completedPacket
  address := byte0 s.regs.accPacket
  extAddress := upperHalf s.regs.accPacket
  data := byte2 s.regs.accPacket
  extData := lowerHalf s.regs.accPacket
  addrValid := Sys2Proof.Machine.addrValid s.regs.accPacket
  dataValid := Sys2Proof.Machine.dataValid s.regs.accPacket

end Sys2Proof.Machine
end

