-- ==== Sys2Proof/Machine/Stimulus.lean ====
section
/-! DEFINITION. The stimulus text (30_encoding.md R46), its pseudo-operations (R47) and its encoding (R48): how a written program becomes the lines a host presents. It has no effect on the block (92_eei_decisions.md D21). -/

namespace Sys2Proof.Machine

/-- An item of a line (30_encoding.md R46), and the pseudo-operations that expand to one EDGE (R47). -/
inductive Item where
  | reset
  | edge (time : Nat)
  | enable
  | disable
  | clear
  | nop
  /-- `BIT0`: `EDGE T+NOM_ZERO`. -/
  | bit0
  /-- `BIT1`: `EDGE T+NOM_ONE`. -/
  | bit1
  /-- `GAP d`: `EDGE T+d`. -/
  | gap (d : Nat)
  /-- `REPEATCODE`: `EDGE T+NOM_REPEAT`. -/
  | repeatCode
  /-- `EXPECT qname == value`. -/
  | expect (q : Instr) (value : QData)
  deriving DecidableEq, Repr

/-- A line of a program as written: items, or a pseudo-operation that expands to whole lines (R47). -/
inductive SourceLine where
  | items (l : List Item)
  /-- `FRAME p`: 32 lines, one bit each. -/
  | frame (p : Packet)
  /-- `IDLE n`: `n` lines NOP. -/
  | idle (n : Nat)
  deriving DecidableEq, Repr

/-- An encoded line, and for an EXPECT the value the query must give. -/
structure ScriptLine where
  line : Line
  expect : Option QData
  deriving DecidableEq, Repr

/-- What the syntax of 30_encoding.md R46 does not admit. -/
inductive AsmError where
  /-- A line has at least one item. -/
  | emptyLine
  /-- "Each command item appears at most once per line." -/
  | repeatedItem
  /-- `0 <= time < 2^TS_W`. -/
  | timeOutOfRange
  /-- EXPECT names one of the thirteen queries. -/
  | notAQuery
  deriving DecidableEq, Repr

/-- The command of an item, with `T` the last EDGE's time in the text; sums are mod `2^TS_W` (R47). -/
def Item.command (c : Config) (T : Nat) : Item → Option Instr
  | .reset => some .reset
  | .edge t => some (.edge t)
  | .enable => some .enable
  | .disable => some .disable
  | .clear => some .clear
  | .nop => some .nop
  | .bit0 => some (.edge ((T + c.nomZero) % c.tsMod))
  | .bit1 => some (.edge ((T + c.nomOne) % c.tsMod))
  | .gap d => some (.edge ((T + d) % c.tsMod))
  | .repeatCode => some (.edge ((T + c.nomRepeat) % c.tsMod))
  | .expect _ _ => none

/-- The check of an EXPECT item. -/
def Item.expectation : Item → Option (Instr × QData)
  | .expect q v => some (q, v)
  | .reset | .edge _ | .enable | .disable | .clear | .nop
  | .bit0 | .bit1 | .gap _ | .repeatCode => none

/-- The queries that R46's `qname` names: codes 0x0 to 0xC. -/
def isNamedQuery (q : Instr) : Bool :=
  match queryCode q with
  | some code => decide (code ≤ 0xC)
  | none => false

/-- A command without its operand, to compare items with. -/
def sameCommand (i : Instr) : Instr :=
  match i with
  | .edge _ => .edge 0
  | other => other

/-- The time of the last EDGE after a line with time operand `T` before it (R47). -/
def lastTime (T : Nat) (ops : List Instr) : Nat :=
  if ops.any (fun i => sameCommand i == .edge 0) then bundleTime ops else T

/-- Assemble one line of items (R46, R48): one cycle for its commands, if any, then its checks, which take
no cycle and see the state the cycle left. -/
def assembleItems (c : Config) (T : Nat) (l : List Item) : Except AsmError (List ScriptLine × Nat) :=
  let ops := l.filterMap (Item.command c T)
  let checks := l.filterMap Item.expectation
  if l.isEmpty then .error .emptyLine
  else if ¬ (ops.map sameCommand).Nodup then .error .repeatedItem
  else if ¬ ops.all (wellFormed c) then .error .timeOutOfRange
  else if ¬ checks.all (fun e => isNamedQuery e.1) then .error .notAQuery
  else .ok ((if ops.isEmpty then [] else [⟨encodeBundle ops, none⟩]) ++
    checks.map (fun e => ⟨encode e.1, some e.2⟩), lastTime T ops)

/-- The bits of `FRAME p` in the order of its lines: bit 31 first (R47). -/
def frameBits (p : Packet) : List Bool := (List.range 32).map (fun k => p.getLsbD (31 - k))

/-- The edge times of a row of bits, each measured from the one before it (R47: BIT0, BIT1). -/
def bitTimes (c : Config) : Nat → List Bool → List Nat
  | _, [] => []
  | T, b :: bs =>
    let t := (T + if b then c.nomOne else c.nomZero) % c.tsMod
    t :: bitTimes c t bs

/-- The encoded lines of a row of bits. -/
def bitLines (c : Config) (T : Nat) (bs : List Bool) : List Line :=
  (bitTimes c T bs).map (fun t => encode (.edge t))

/-- The encoded lines of `FRAME p` (R47). -/
def frameLines (c : Config) (T : Nat) (p : Packet) : List Line := bitLines c T (frameBits p)

/-- Assemble a program, `T` being 0 before its first EDGE (R47). -/
def assemble (c : Config) : Nat → List SourceLine → Except AsmError (List ScriptLine)
  | _, [] => .ok []
  | T, .items l :: rest => do
    let (ls, T') ← assembleItems c T l
    let more ← assemble c T' rest
    pure (ls ++ more)
  | T, .frame p :: rest => do
    let more ← assemble c ((bitTimes c T (frameBits p)).getLastD T) rest
    pure ((frameLines c T p).map (fun l => ⟨l, none⟩) ++ more)
  | T, .idle n :: rest => do
    let more ← assemble c T rest
    pure (List.replicate n ⟨encode .nop, none⟩ ++ more)

/-- The value a line reads on `qdata`; a cycle reads none. -/
def lineAnswer (l : Line) (s : State) : Option QData :=
  match l with
  | .query q => some (s.qdata (BitVec.ofNat 4 q))
  | .cycle _ _ => none

/-- Run an assembled program; false where a line does not answer or an EXPECT does not hold (R46). -/
def scriptPasses : List ScriptLine → State → Bool
  | [], _ => true
  | l :: ls, s =>
    match runLine l.line s with
    | .next t => l.expect.all (fun v => lineAnswer l.line t == some v) && scriptPasses ls t
    | .fault _ => false
    | .refused _ => false

end Sys2Proof.Machine
end

