-- ==== Sys2Proof/Safety.lean ====
section
/-! DEFINITION. The invariant of the registers, the lines a host can present, and the host's duties, in the terms statements use. -/

namespace Sys2Proof.Machine

/-- What every reachable state meets: the count stays below 32 between steps (10_state.md R24), it is 0 while
the completion flag is up (R25), and `last_edge` fits its width (R12, R18). -/
structure Regs.Inv (c : Config) (r : Regs) : Prop where
  countBelow32 : r.bitCount.toNat ≤ 31
  doneCountZero : r.done = true → r.bitCount = 0#6
  lastEdgeFits : r.lastEdge < c.tsMod

/-- The invariant of the machine. -/
def State.Inv (s : State) : Prop := s.regs.Inv s.cfg

/-- A line that fits the ports (30_encoding.md R37 to R39): what a host can present. -/
def presentable (c : Config) : Line → Bool
  | .cycle cmd t => decide (cmd < 2 ^ 5) && decide (t < c.tsMod)
  | .query q => decide (q < 2 ^ 4)

/-- The lines one step takes: the queries that stand first and the cycle after them. -/
def presented : List Line → List Line
  | [] => []
  | .query q :: ls => .query q :: presented ls
  | .cycle cmd t :: _ => [.cycle cmd t]

/-- The vector and the time of the cycle that one step applies; none when no cycle is presented. -/
def nextCycle : List Line → Option (Nat × Nat)
  | [] => none
  | .query _ :: ls => nextCycle ls
  | .cycle cmd t :: _ => some (cmd, t)

/-- The lines that stay after one step. -/
def linesAfter : List Line → List Line
  | [] => []
  | .query _ :: ls => linesAfter ls
  | .cycle _ _ :: ls => ls

/-- The time of the EDGE that a line presents, if it presents one (30_encoding.md R38). -/
def edgeTimeOf : Line → Option Nat
  | .cycle cmd t => if cmd.testBit 0 && !cmd.testBit 4 then some t else none
  | .query _ => none

/-- The host's duty on time (70_reset_and_hazards.md R102): from time `last` on, every EDGE is later than the
one before it. The block does not check it; it is a premise for claims about an IR signal.
DESIGN CHOICE (log entry 15), safe: later means a larger number, so a step of the clock across its wrap at
`2^TS_W` counts as a breach, though the interval across one wrap is right (30_encoding.md R38, 41_edge.md R59). -/
def timesIncrease : Nat → List Line → Bool
  | _, [] => true
  | last, l :: ls =>
    match edgeTimeOf l with
    | some t => decide (last < t) && timesIncrease t ls
    | none => timesIncrease last ls

/-- A run of `n` steps stays safe when it answers a next state: no fault, no refusal. -/
def RunsSafely (n : Nat) (s : State) : Prop := ∃ t, Host.Core.run Sys2Proof.core n s = .next t

end Sys2Proof.Machine
end

