-- ==== Sys2Proof/Certificates/Slice0/Obligations.lean ====
section
/-! DEFINITION. The statements about the model, each from a rule of spec/ (its docstring names it), and the pseudocode of R57 and R44 written out as the spec has it, for the statements that compare the model with it. -/

open Sys2Proof Sys2Proof.Machine

/-! The spec's own pseudocode, apart from the model: the emission is a returned value, `done` is written at
the end of the bundle. -/

/-- The interval of 41_edge.md R59, in natural numbers. -/
def Sys2Proof.Pseudo.interval (c : Config) (S : Regs) (t : Nat) : Nat :=
  (t + (c.tsMod - S.lastEdge % c.tsMod)) % c.tsMod

/-- EDGE as 41_edge.md R57 writes it: the new registers, and `Complete(v)` or none. -/
def Sys2Proof.Pseudo.edge (c : Config) (S : Regs) (t : Nat) : Regs × Option Packet :=
  if S.procEn = false then (S, none)
  else
    let bit (b : Bool) : Regs × Option Packet :=
      let S1 := { S with
        accPacket := (S.accPacket.extractLsb' 0 31 ++ BitVec.ofBool b : BitVec 32)
        bitCount := S.bitCount + 1#6 }
      if S1.bitCount = 32#6 then
        ({ S1 with procEn := false, bitCount := 0#6, completedPacket := S1.accPacket }, some S1.accPacket)
      else (S1, none)
    let out : Regs × Option Packet :=
      match classify c (Sys2Proof.Pseudo.interval c S t) with
      | .one => bit true
      | .zero => bit false
      | .repeatCode => ({ S with bitCount := 0#6, procEn := false }, some S.accPacket)
      | .unclassified => (S, none)
    ({ out.1 with lastEdge := t }, out.2)

/-- The registers with the emission of an EDGE, if there is one, in `done` and `done_packet`. -/
def Sys2Proof.Pseudo.emitted : Regs × Option Packet → Regs
  | (S, none) => S
  | (S, some v) => { S with done := true, donePacket := v }

/-- `Step(S, CMD, t)` as 30_encoding.md R44 writes it. -/
def Sys2Proof.Pseudo.cycle (c : Config) (S : Regs) (cmd : CmdVec) (t : Nat) : Regs :=
  if cmd.getLsbD 4 then ⟨true, 0#32, 0#6, 0#32, 0, false, 0#32⟩
  else
    let out := if cmd.getLsbD 0 then Sys2Proof.Pseudo.edge c S t else (S, none)
    let S1 := out.1
    let S2 := if cmd.getLsbD 3 then { S1 with bitCount := 0#6, accPacket := 0#32 } else S1
    let S3 := if cmd.getLsbD 1 then { S2 with procEn := true } else S2
    let S4 := if cmd.getLsbD 2 then { S3 with procEn := false } else S3
    match out.2 with
    | some v => { S4 with done := true, donePacket := v }
    | none => { S4 with done := false }

/-! Reset. -/

/-- The reset state holds the values of R23, and RESET puts every register to them from any state. That RESET
leaves the parameters and the lines to come, which are no registers, is the model's choice (log entry 14). -/
def Obligations.ResetGivesTheRuleValues : Prop :=
  State.reset.regs = ⟨true, 0#32, 0#6, 0#32, 0, false, 0#32⟩ ∧
  ∀ s : State, exec .reset s = .next { s with regs := ⟨true, 0#32, 0#6, 0#32, 0, false, 0#32⟩ }

/-- R97: with bit 4 of the vector set, the cycle is RESET whatever bits 3:0 and `edge_time` hold. -/
def Obligations.ResetOverridesTheCycle : Prop :=
  ∀ (s : State) (rest : List Line) (cmd t : Nat), 16 ≤ cmd → cmd < 32 → t < s.cfg.tsMod →
    s.stim = .cycle cmd t :: rest →
    step s = .next { s with regs := ⟨true, 0#32, 0#6, 0#32, 0, false, 0#32⟩, stim := rest }

/-! ENABLE, DISABLE, CLEAR, NOP. -/

/-- R67, R41: ENABLE writes `proc_en` alone; on an enabled block it changes nothing; the attach output
rises. -/
def Obligations.EnableSetsOnlyProcEn : Prop :=
  ∀ s : State,
    exec .enable s = .next { s with regs := { s.regs with procEn := true } } ∧
    (s.regs.procEn = true → exec .enable s = .next s) ∧
    (∀ t, exec .enable s = .next t → t.edgeSrcAttach = true ∧ ∀ q, (t.outputs q).edgeSrcAttach = true)

/-- R68, R41: DISABLE writes `proc_en` alone; twice is once; the attach output falls. -/
def Obligations.DisableSetsOnlyProcEn : Prop :=
  ∀ s : State,
    exec .disable s = .next { s with regs := { s.regs with procEn := false } } ∧
    (∀ t, exec .disable s = .next t →
      exec .disable t = .next t ∧ t.edgeSrcAttach = false ∧ ∀ q, (t.outputs q).edgeSrcAttach = false)

/-- R69: CLEAR writes `bit_count` and `acc_packet` alone, and what the queries read after it. -/
def Obligations.ClearEmptiesThePacket : Prop :=
  ∀ s : State,
    exec .clear s = .next { s with regs := { s.regs with bitCount := 0#6, accPacket := 0#32 } } ∧
    (∀ t, exec .clear s = .next t →
      queryValue 0x2#4 t.regs = 0#32 ∧ queryValue 0x9#4 t.regs = 0#32 ∧
      queryValue 0x7#4 t.regs = 0#32 ∧ queryValue 0x8#4 t.regs = 0#32 ∧
      queryValue 0xA#4 t.regs = s.regs.completedPacket)

/-- R70: NOP leaves every register except `done`, which falls; the vector 0 is NOP. -/
def Obligations.NopLowersDone : Prop :=
  ∀ s : State,
    exec .nop s = .next { s with regs := { s.regs with done := false } } ∧
    (∀ (rest : List Line) (t : Nat), t < s.cfg.tsMod → s.stim = .cycle 0 t :: rest →
      step s = .next { s with regs := { s.regs with done := false }, stim := rest })

/-! EDGE. -/

/-- EDGE is the pseudocode of R57, in every state, for every timestamp of the port; every vector with bit 0 and
without bit 4 selects it, first in its bundle. That EDGE itself writes its emission to `done` and `done_packet`,
where R44 does so at the end of the bundle, is the model's choice (log entry 6). -/
def Obligations.EdgeFollowsItsPseudocode : Prop :=
  ∀ (s : State) (t : Nat), t < s.cfg.tsMod →
    exec (.edge t) s = .next { s with regs := Sys2Proof.Pseudo.emitted (Sys2Proof.Pseudo.edge s.cfg s.regs t) } ∧
    ∀ cmd : Nat, cmd < 16 → cmd % 2 = 1 → ∃ ops, decodeLine s.cfg (.cycle cmd t) = .ok (.edge t :: ops)

/-- R58: while disabled an EDGE changes no register and emits no completion: in a cycle of its own it leaves
`done` low and everything else as it was. -/
def Obligations.DisabledEdgeIsDiscarded : Prop :=
  ∀ (s : State) (t : Nat), s.regs.procEn = false →
    exec (.edge t) s = .next s ∧
    (∀ rest : List Line, t < s.cfg.tsMod → s.stim = .cycle 1 t :: rest →
      step s = .next { s with regs := { s.regs with done := false }, stim := rest })

/-- R59: the interval is the number below `2^TS_W` that leads from `last_edge` to `t` modulo `2^TS_W`, the only
one; longer gaps alias to their remainder. -/
def Obligations.IntervalIsModularSubtraction : Prop :=
  (∀ (c : Config) (t last : Nat), t < c.tsMod → last < c.tsMod →
    interval c t last < c.tsMod ∧ (last + interval c t last) % c.tsMod = t ∧
    ∀ iv, iv < c.tsMod → (last + iv) % c.tsMod = t → iv = interval c t last) ∧
  (∀ (c : Config) (last d : Nat), interval c ((last + d) % c.tsMod) last = d % c.tsMod)

/-- R60: a data bit shifts in at bit 0, bit 31 is lost, and the count goes up by one; below the 32nd bit
nothing else changes but the timestamp. -/
def Obligations.DataBitShiftsIn : Prop :=
  ∀ (s : State) (t : Nat) (b : Bool), t < s.cfg.tsMod → s.regs.procEn = true →
    classify s.cfg (interval s.cfg t s.regs.lastEdge) = (if b then .one else .zero) →
    ∃ r : Regs, exec (.edge t) s = .next { s with regs := r } ∧
      r.accPacket.toNat = (2 * s.regs.accPacket.toNat + b.toNat) % 2 ^ 32 ∧
      (s.regs.bitCount ≠ 31#6 → r = { s.regs with
        accPacket := r.accPacket, bitCount := s.regs.bitCount + 1#6, lastEdge := t })

/-- After R61: the bit that makes the count 32 ends the packet: the block is disabled, the count is 0, the packet
is in `completed_packet` and stays in `acc_packet`, and the flag is up with the packet's value, also at the end
of a bundle with CLEAR, ENABLE or DISABLE (R44). That the operation EDGE raises the flag at once, and not at the
end of the bundle, is the model's choice (log entry 6). -/
def Obligations.ThirtySecondBitCompletes : Prop :=
  ∀ (s : State) (t : Nat) (b : Bool), t < s.cfg.tsMod → s.regs.procEn = true →
    classify s.cfg (interval s.cfg t s.regs.lastEdge) = (if b then .one else .zero) →
    s.regs.bitCount = 31#6 →
    ∃ p : Packet, p.toNat = (2 * s.regs.accPacket.toNat + b.toNat) % 2 ^ 32 ∧
      exec (.edge t) s = .next { s with regs := ⟨false, p, 0#6, p, t, true, p⟩ } ∧
      (∀ (rest : List Line) (cmd : Nat), cmd < 16 → cmd % 2 = 1 → s.stim = .cycle cmd t :: rest →
        ∃ s', step s = .next s' ∧ s'.regs.done = true ∧ s'.regs.donePacket = p ∧
          s'.regs.completedPacket = p ∧ s'.regs.bitCount = 0#6)

/-- After R62: a repeat code ends the packet and emits the current `acc_packet`; neither `acc_packet` nor
`completed_packet` is written. The flag is up at the end of every bundle with such an EDGE (R44). That the operation EDGE
raises the flag at once, and not at the end of the bundle, is the model's choice (log entry 6). -/
def Obligations.RepeatForwardsTheCurrentPacket : Prop :=
  ∀ (s : State) (t : Nat), t < s.cfg.tsMod → s.regs.procEn = true →
    classify s.cfg (interval s.cfg t s.regs.lastEdge) = .repeatCode →
    exec (.edge t) s = .next { s with regs := { s.regs with
      bitCount := 0#6, procEn := false, lastEdge := t, done := true, donePacket := s.regs.accPacket } } ∧
    (∀ (rest : List Line) (cmd : Nat), cmd < 16 → cmd % 2 = 1 → s.stim = .cycle cmd t :: rest →
      ∃ s', step s = .next s' ∧ s'.regs.done = true ∧ s'.regs.donePacket = s.regs.accPacket ∧
        s'.regs.completedPacket = s.regs.completedPacket ∧ s'.regs.bitCount = 0#6)

/-- R63: an unclassified interval changes nothing but `last_edge`, and emits no completion: in a cycle of its own
it leaves `done` low. -/
def Obligations.UnclassifiedMovesOnlyTheTimestamp : Prop :=
  ∀ (s : State) (t : Nat), t < s.cfg.tsMod → s.regs.procEn = true →
    classify s.cfg (interval s.cfg t s.regs.lastEdge) = .unclassified →
    exec (.edge t) s = .next { s with regs := { s.regs with lastEdge := t } } ∧
    (∀ rest : List Line, s.stim = .cycle 1 t :: rest →
      step s = .next { s with regs := { s.regs with lastEdge := t, done := false }, stim := rest })

/-- R64: every EDGE applied while enabled ends with `last_edge = t`, whatever its class. -/
def Obligations.EnabledEdgeRecordsItsTime : Prop :=
  ∀ (s : State) (t : Nat), t < s.cfg.tsMod → s.regs.procEn = true →
    ∃ s', exec (.edge t) s = .next s' ∧ s'.regs.lastEdge = t

/-- R102 item 1 (derived there): a second EDGE at the same time has no effect, for deviations below 100
percent and nominals that are not 0. -/
def Obligations.DuplicateEdgeHasNoEffect : Prop :=
  ∀ s : State, s.cfg.devPct < 100 → 0 < s.cfg.nomOne → 0 < s.cfg.nomZero → 0 < s.cfg.nomRepeat →
    s.regs.lastEdge < s.cfg.tsMod → exec (.edge s.regs.lastEdge) s = .next s

/-! The classifier. -/

/-- R50: membership is in the closed rational interval `[nom - nom·dev, nom + nom·dev]`. -/
def Obligations.WindowIsTheClosedInterval : Prop :=
  ∀ (c : Config) (iv nom : Nat), inWin c iv nom = true ↔
    (nom : ℚ) - nom * (c.devPct / 100) ≤ iv ∧ (iv : ℚ) ≤ nom + nom * (c.devPct / 100)

/-- R51 (derived there): for deviations up to 100 percent, truncating integer bounds give the same window. -/
def Obligations.WindowHasIntegerBounds : Prop :=
  ∀ (c : Config) (iv nom : Nat), c.devPct ≤ 100 →
    (inWin c iv nom = true ↔ winLo c nom ≤ iv ∧ iv ≤ winHi c nom)

/-- R52, R55 at the defaults: the three windows, and everything else unclassified. -/
def Obligations.DefaultWindows : Prop :=
  ∀ iv : Nat, classify Config.default iv =
    if 2025 ≤ iv ∧ iv ≤ 2475 then .one
    else if 1013 ≤ iv ∧ iv ≤ 1237 then .zero
    else if 90000 ≤ iv ∧ iv ≤ 110000 then .repeatCode
    else .unclassified

/-- R54: the first match in the order ONE, ZERO, REPEAT wins; with none, UNCLASSIFIED (R55). -/
def Obligations.FirstMatchingWindowWins : Prop :=
  ∀ (c : Config) (iv : Nat),
    (classify c iv = .one ↔ inWin c iv c.nomOne = true) ∧
    (classify c iv = .zero ↔ inWin c iv c.nomOne = false ∧ inWin c iv c.nomZero = true) ∧
    (classify c iv = .repeatCode ↔ inWin c iv c.nomOne = false ∧ inWin c iv c.nomZero = false ∧
      inWin c iv c.nomRepeat = true) ∧
    (classify c iv = .unclassified ↔ inWin c iv c.nomOne = false ∧ inWin c iv c.nomZero = false ∧
      inWin c iv c.nomRepeat = false)

/-- R53 (derived there): at the default nominals, the deviations at which two windows first overlap, and
the intervals in both there. -/
def Obligations.OverlapThresholds : Prop :=
  ∀ (c : Config) (iv : Nat), c.nomOne = 2250 → c.nomZero = 1125 → c.nomRepeat = 100000 →
    (c.devPct ≤ 33 → ¬ (inWin c iv c.nomOne = true ∧ inWin c iv c.nomZero = true)) ∧
    (c.devPct = 34 → ((inWin c iv c.nomOne = true ∧ inWin c iv c.nomZero = true) ↔ 1485 ≤ iv ∧ iv ≤ 1507)) ∧
    (c.devPct ≤ 95 → ¬ (inWin c iv c.nomOne = true ∧ inWin c iv c.nomRepeat = true)) ∧
    (c.devPct = 96 → ((inWin c iv c.nomOne = true ∧ inWin c iv c.nomRepeat = true) ↔ 4000 ≤ iv ∧ iv ≤ 4410)) ∧
    (c.devPct ≤ 97 → ¬ (inWin c iv c.nomZero = true ∧ inWin c iv c.nomRepeat = true)) ∧
    (c.devPct = 98 → ((inWin c iv c.nomZero = true ∧ inWin c iv c.nomRepeat = true) ↔ 2000 ≤ iv ∧ iv ≤ 2227))

/-- R55's corner case of the zero interval, for nominals that are not 0. -/
def Obligations.ZeroIntervalClass : Prop :=
  ∀ c : Config, 0 < c.nomOne → 0 < c.nomZero → 0 < c.nomRepeat →
    (c.devPct < 100 → classify c 0 = .unclassified) ∧ (100 ≤ c.devPct → classify c 0 = .one)

/-- R7: where `TS_W` meets the rule's constraint, every interval of a window whose nominal is at most
`NOM_REPEAT` is one that the clock can show. -/
def Obligations.SupportedWidthHoldsEveryWindow : Prop :=
  ∀ (c : Config) (iv nom : Nat), c.supported = true → nom ≤ c.nomRepeat → inWin c iv nom = true → iv < c.tsMod

/-! Queries and ports. -/

/-- Every query answers in every state: it changes nothing at all (R11), and the host reads the value its rule
gives (R72 to R86). -/
def Obligations.QueriesSelectAndRead : Prop :=
  ∀ (s : State) (low : Bool),
    (exec .qState s = .next s ∧ answer .qState s = some (if s.regs.procEn then 1#32 else 0#32)) ∧
    (exec .qProcEn s = .next s ∧ answer .qProcEn s = some (if s.regs.procEn then 1#32 else 0#32)) ∧
    (exec .qRawPacket s = .next s ∧ answer .qRawPacket s = some s.regs.accPacket) ∧
    (exec .qAddress s = .next s ∧
      (answer .qAddress s).map BitVec.toNat = some (s.regs.accPacket.toNat / 2 ^ 24)) ∧
    (exec .qExtAddress s = .next s ∧
      (answer .qExtAddress s).map BitVec.toNat = some (s.regs.accPacket.toNat / 2 ^ 16)) ∧
    (exec .qData s = .next s ∧
      (answer .qData s).map BitVec.toNat = some (s.regs.accPacket.toNat / 2 ^ 8 % 2 ^ 8)) ∧
    (exec .qExtData s = .next s ∧
      (answer .qExtData s).map BitVec.toNat = some (s.regs.accPacket.toNat % 2 ^ 16)) ∧
    (exec .qAddrValid s = .next s ∧ answer .qAddrValid s =
      some (if s.regs.accPacket.extractLsb' 16 8 = ~~~ s.regs.accPacket.extractLsb' 24 8 then 1#32 else 0#32)) ∧
    (exec .qDataValid s = .next s ∧ answer .qDataValid s =
      some (if s.regs.accPacket.extractLsb' 0 8 = ~~~ s.regs.accPacket.extractLsb' 8 8 then 1#32 else 0#32)) ∧
    (exec .qBitCount s = .next s ∧ (answer .qBitCount s).map BitVec.toNat = some s.regs.bitCount.toNat) ∧
    (exec .qCompletedPacket s = .next s ∧ answer .qCompletedPacket s = some s.regs.completedPacket) ∧
    (exec .qDonePacket s = .next s ∧ answer .qDonePacket s = some s.regs.donePacket) ∧
    (exec .qDone s = .next s ∧ answer .qDone s = some (if s.regs.done then 1#32 else 0#32)) ∧
    (exec .qReservedD s = .next s ∧ answer .qReservedD s = some 0#32) ∧
    (exec (.qReservedEF low) s = .next s ∧ answer (.qReservedEF low) s = some 0#32)

/-- R72 to R78: what `qdata` shows for the seven state queries. -/
def Obligations.QueriesShowTheirRegisters : Prop :=
  ∀ s : State,
    (s.qdata 0x0#4 = if s.regs.procEn then 1#32 else 0#32) ∧
    (s.qdata 0x1#4 = if s.regs.procEn then 1#32 else 0#32) ∧
    s.qdata 0x2#4 = s.regs.accPacket ∧
    (s.qdata 0x9#4).toNat = s.regs.bitCount.toNat ∧
    s.qdata 0xA#4 = s.regs.completedPacket ∧
    s.qdata 0xB#4 = s.regs.donePacket ∧
    (s.qdata 0xC#4 = if s.regs.done then 1#32 else 0#32)

/-- R79 to R82: what `qdata` shows for the four fields, as parts of the number `acc_packet`. -/
def Obligations.FieldAccessorsReadAccPacket : Prop :=
  ∀ s : State,
    (s.qdata 0x3#4).toNat = s.regs.accPacket.toNat / 2 ^ 24 ∧
    (s.qdata 0x4#4).toNat = s.regs.accPacket.toNat / 2 ^ 16 ∧
    (s.qdata 0x5#4).toNat = s.regs.accPacket.toNat / 2 ^ 8 % 2 ^ 8 ∧
    (s.qdata 0x6#4).toNat = s.regs.accPacket.toNat % 2 ^ 16

/-- R83, R84: a validity query reads 1 exactly when its two bytes are complements, that is, add up to 255. -/
def Obligations.ValidityIsTheComplementCheck : Prop :=
  ∀ s : State,
    (s.qdata 0x7#4 =
      if s.regs.accPacket.toNat / 2 ^ 16 % 2 ^ 8 + s.regs.accPacket.toNat / 2 ^ 24 = 255 then 1#32 else 0#32) ∧
    (s.qdata 0x8#4 =
      if s.regs.accPacket.toNat % 2 ^ 8 + s.regs.accPacket.toNat / 2 ^ 8 % 2 ^ 8 = 255 then 1#32 else 0#32)

/-- R86: the reserved codes read 0 in every state; presenting one has no effect: the step is the one without it. -/
def Obligations.ReservedCodesReadZero : Prop :=
  ∀ s : State,
    (∀ q : QCode, 0xD ≤ q.toNat → s.qdata q = 0#32) ∧
    (∀ (q : Nat) (rest : List Line), 0xD ≤ q → q < 16 → s.stim = .query q :: rest →
      step s = step { s with stim := rest })

/-- R33: a query changes no state, `done` in particular, so that the same query again reads the same; what it
reads is `qdata` at its code (R39); and it is no step (R11): a query presented before a cycle leaves that cycle's
step as it is without it. -/
def Obligations.QueriesHaveNoSideEffect : Prop :=
  ∀ (i : Instr) (q : Nat) (s : State), queryCode i = some q →
    exec i s = .next s ∧ answer i s = some (s.qdata (BitVec.ofNat 4 q)) ∧
    ∀ rest : List Line, s.stim = .query q :: rest → step s = step { s with stim := rest }

/-- R40, R41: each dedicated output is the query of its name, without the zero-extension, and the attach output
is `proc_en`, whatever `qsel` selects. -/
def Obligations.DedicatedOutputsEqualQueries : Prop :=
  ∀ (s : State) (q : QCode),
    zextBit (s.outputs q).procEn = queryValue 0x1#4 s.regs ∧
    (s.outputs q).rawPacket = queryValue 0x2#4 s.regs ∧
    zext (s.outputs q).address = queryValue 0x3#4 s.regs ∧
    zext (s.outputs q).extAddress = queryValue 0x4#4 s.regs ∧
    zext (s.outputs q).data = queryValue 0x5#4 s.regs ∧
    zext (s.outputs q).extData = queryValue 0x6#4 s.regs ∧
    zextBit (s.outputs q).addrValid = queryValue 0x7#4 s.regs ∧
    zextBit (s.outputs q).dataValid = queryValue 0x8#4 s.regs ∧
    zext (s.outputs q).bitCount = queryValue 0x9#4 s.regs ∧
    (s.outputs q).completedPacket = queryValue 0xA#4 s.regs ∧
    (s.outputs q).donePacket = queryValue 0xB#4 s.regs ∧
    zextBit (s.outputs q).done = queryValue 0xC#4 s.regs ∧
    (s.outputs q).edgeSrcAttach = s.regs.procEn

/-- R29: the packet is its four bytes, byte 0 on top. -/
def Obligations.PacketIsItsFourBytes : Prop :=
  ∀ p : Packet, (byte0 p ++ byte1 p ++ byte2 p ++ byte3 p : BitVec 32) = p ∧
    (upperHalf p ++ lowerHalf p : BitVec 32) = p

/-- R26: no output depends on `last_edge`, whatever `qsel` selects. -/
def Obligations.TimestampIsHidden : Prop :=
  ∀ (s : State) (q : QCode) (x : Nat),
    ({ s with regs := { s.regs with lastEdge := x } } : State).outputs q = s.outputs q

/-! Encoding. -/

/-- Lines written out from 30_encoding.md R37, R42, R43, R48 decode to what they stand for. -/
def Obligations.WrittenOutLinesDecode : Prop :=
  decodeLine Config.default (.cycle 0b00001 3250) = .ok [.edge 3250] ∧
  decodeLine Config.default (.cycle 0b00010 0) = .ok [.enable] ∧
  decodeLine Config.default (.cycle 0b00100 0) = .ok [.disable] ∧
  decodeLine Config.default (.cycle 0b01000 0) = .ok [.clear] ∧
  decodeLine Config.default (.cycle 0b00000 0) = .ok [.nop] ∧
  decodeLine Config.default (.cycle 0b10001 7750) = .ok [.reset] ∧
  decodeLine Config.default (.cycle 0b00101 3250) = .ok [.edge 3250, .disable] ∧
  decodeLine Config.default (.query 0x5) = .ok [.qData] ∧
  decodeLine Config.default (.query 0xF) = .ok [.qReservedEF true]

/-- R42: a vector selects the rows whose bits it has, RESET's alone if it has bit 4, in the order of R44, and NOP
exactly when it has no bit. -/
def Obligations.VectorsSelectTheirRows : Prop :=
  ∀ (c : Config) (cmd t : Nat), cmd < 32 → t < c.tsMod →
    ∃ ops, decodeLine c (.cycle cmd t) = .ok ops ∧
      (Instr.reset ∈ ops ↔ cmd.testBit 4 = true) ∧
      (∀ t', Instr.edge t' ∈ ops ↔ cmd.testBit 0 = true ∧ cmd.testBit 4 = false ∧ t' = t) ∧
      (Instr.enable ∈ ops ↔ cmd.testBit 1 = true ∧ cmd.testBit 4 = false) ∧
      (Instr.disable ∈ ops ↔ cmd.testBit 2 = true ∧ cmd.testBit 4 = false) ∧
      (Instr.clear ∈ ops ↔ cmd.testBit 3 = true ∧ cmd.testBit 4 = false) ∧
      (Instr.nop ∈ ops ↔ cmd = 0) ∧
      (∀ i ∈ ops, queryCode i = none) ∧ (ops.map bundleRank).Pairwise (· < ·)

/-- R43: the sixteen codes and the query each selects. -/
def Obligations.QueryCodesSelectTheirRows : Prop :=
  ∀ (c : Config) (q : Nat), q < 16 → decodeLine c (.query q) = .ok
    [([.qState, .qProcEn, .qRawPacket, .qAddress, .qExtAddress, .qData, .qExtData, .qAddrValid,
       .qDataValid, .qBitCount, .qCompletedPacket, .qDonePacket, .qDone, .qReservedD,
       .qReservedEF false, .qReservedEF true] : List Instr).getD q .nop]

/-- Decode and encode agree on every well-formed instruction, for every parameter. -/
def Obligations.DecodeOfEncodeIsTheInstruction : Prop :=
  ∀ (c : Config) (i : Instr), wellFormed c i = true → decodeLine c (encode i) = .ok [i]

/-- Decode and encode agree on every well-formed bundle (R37, R44, R48). -/
def Obligations.DecodeOfEncodeIsTheBundle : Prop :=
  ∀ (c : Config) (ops : List Instr), bundleWellFormed c ops = true → decodeLine c (encodeOps ops) = .ok ops

/-- R45: every one of the 32 vectors, with any time of the port, and every one of the 16 codes decodes, to a
well-formed line with at most one EDGE (93_implementation_defined.md U4). -/
def Obligations.EveryPresentableLineDecodes : Prop :=
  ∀ (c : Config) (l : Line), presentable c l = true →
    ∃ ops, decodeLine c l = .ok ops ∧ bundleWellFormed c ops = true ∧
      (ops.filter (fun i => bundleRank i == 1)).length ≤ 1

/-- No bit of a vector without RESET is lost by decoding: encoding what was decoded gives the vector back,
and the time where EDGE uses it (R38: otherwise it is ignored). -/
def Obligations.DecodingKeepsEveryCommandBit : Prop :=
  ∀ (c : Config) (cmd t : Nat) (ops : List Instr), cmd < 16 → decodeLine c (.cycle cmd t) = .ok ops →
    encodeOps ops = .cycle cmd (if cmd % 2 = 1 then t else 0)

/-- A step that takes a line whose numbers do not fit the ports stops by name (log entry 7), and only such a
step does. -/
def Obligations.OnlyMalformedLinesAreRefused : Prop :=
  ∀ s : State, (∃ e, step s = .refused (.malformedLine e)) ↔ ∃ l ∈ presented s.stim, presentable s.cfg l = false

/-- Every line that the assembler makes of a program text (R46 to R48) is one a host can present. -/
def Obligations.AssembledLinesArePresentable : Prop :=
  ∀ (c : Config) (T : Nat) (src : List SourceLine) (ls : List ScriptLine), assemble c T src = .ok ls →
    ∀ l ∈ ls, presentable c l.line = true

/-! The step. -/

/-- A step runs what the next cycle decodes to: one instruction by exec, several by exec one after the other,
after the cycle has lowered `done` (log entry 6); a query in front of the cycle runs by exec and the step goes on
from the state it answers, since a query is no step (R11); the lines are taken off the list (log entry 1). -/
def Obligations.StepRunsTheDecodedLine : Prop :=
  ∀ (s : State) (rest : List Line),
    (∀ (cmd t : Nat) (i : Instr), s.stim = .cycle cmd t :: rest → decodeLine s.cfg (.cycle cmd t) = .ok [i] →
      step s = exec i { s with regs := { s.regs with done := false }, stim := rest }) ∧
    (∀ (q : Nat) (i : Instr), s.stim = .query q :: rest → decodeLine s.cfg (.query q) = .ok [i] →
      ∃ s1, exec i { s with stim := rest } = .next s1 ∧ step s = step s1) ∧
    (∀ (cmd t : Nat) (i : Instr) (ops : List Instr), s.stim = .cycle cmd t :: rest →
      decodeLine s.cfg (.cycle cmd t) = .ok (i :: ops) →
      ∃ s1, exec i { s with regs := { s.regs with done := false }, stim := rest } = .next s1 ∧
        step s = runOps ops s1)

/-- A word presented in the table's numbering is run by the very next step (log entries 8 and 9): a command is
that step, a query is answered before it. -/
def Obligations.PresentedWordRunsNext : Prop :=
  ∀ (s : State) (nbits w : Nat) (i : Instr), decodeLine s.cfg (tableLine nbits w) = .ok [i] →
    (queryCode i = none →
      step (s.withFetchWord nbits w) = exec i { s with regs := { s.regs with done := false } }) ∧
    (queryCode i ≠ none → ∃ s1, exec i s = .next s1 ∧ step (s.withFetchWord nbits w) = step s1)

/-- A cycle for which the host presents nothing lowers `done` and changes nothing else: the model's choice
(log entry 2), after R70. -/
def Obligations.IdleCycleOnlyLowersDone : Prop :=
  ∀ s : State, s.stim = [] → step s = .next { s with regs := { s.regs with done := false } }

/-- R44: a step is the rule's `Step(S, CMD, t)` of the next cycle presented, for every vector, every time of the
port and every state of the registers; the queries in front of the cycle change nothing (R11). -/
def Obligations.CycleAppliesTheBundleInOrder : Prop :=
  ∀ (s : State) (cmd : CmdVec) (t : Nat), nextCycle s.stim = some (cmd.toNat, t) →
    (∀ l ∈ presented s.stim, presentable s.cfg l = true) →
    step s = .next { s with
      regs := Sys2Proof.Pseudo.cycle s.cfg s.regs cmd t
      stim := linesAfter s.stim }

/-- R19: after a cycle, `done` is 1 exactly when the cycle's EDGE completed. -/
def Obligations.DoneTellsACompletion : Prop :=
  ∀ (s : State) (rest : List Line) (cmd t : Nat), cmd < 32 → t < s.cfg.tsMod → s.stim = .cycle cmd t :: rest →
    ∃ s', step s = .next s' ∧
      (s'.regs.done = true ↔ cmd < 16 ∧ cmd % 2 = 1 ∧ s.regs.procEn = true ∧
        (classify s.cfg (interval s.cfg t s.regs.lastEdge) = .repeatCode ∨
          (classify s.cfg (interval s.cfg t s.regs.lastEdge) ∈ [EdgeClass.one, EdgeClass.zero] ∧
            s.regs.bitCount = 31#6)))

/-- R20: `done_packet` changes only with a completion, to the value the pseudocode of R57 emits, or to 0 by
RESET. -/
def Obligations.DonePacketChangesOnlyOnCompletion : Prop :=
  ∀ s s' : State, step s = .next s' → s'.regs.donePacket ≠ s.regs.donePacket →
    ∃ cmd t, nextCycle s.stim = some (cmd, t) ∧
      ((16 ≤ cmd ∧ s'.regs.donePacket = 0#32) ∨
       (cmd < 16 ∧ cmd % 2 = 1 ∧ s'.regs.done = true ∧
        (Sys2Proof.Pseudo.edge s.cfg s.regs t).2 = some s'.regs.donePacket))

/-- R17: `completed_packet` changes only by the 32nd bit, to the packet with that bit, or to 0 by RESET. -/
def Obligations.CompletedPacketHasTwoWriters : Prop :=
  ∀ s s' : State, step s = .next s' → s'.regs.completedPacket ≠ s.regs.completedPacket →
    ∃ cmd t, nextCycle s.stim = some (cmd, t) ∧
      ((16 ≤ cmd ∧ s'.regs.completedPacket = 0#32) ∨
       (cmd < 16 ∧ cmd % 2 = 1 ∧ s.regs.procEn = true ∧ s.regs.bitCount = 31#6 ∧
        ∃ b : Bool, classify s.cfg (interval s.cfg t s.regs.lastEdge) = (if b then .one else .zero) ∧
          s'.regs.completedPacket = (s.regs.accPacket <<< 1) ||| (if b then 1#32 else 0#32)))

/-- R18: `last_edge` changes only by an EDGE applied while enabled, to its time, or to 0 by RESET. -/
def Obligations.LastEdgeHasTwoWriters : Prop :=
  ∀ s s' : State, step s = .next s' → s'.regs.lastEdge ≠ s.regs.lastEdge →
    ∃ cmd t, nextCycle s.stim = some (cmd, t) ∧
      ((16 ≤ cmd ∧ s'.regs.lastEdge = 0) ∨
       (cmd < 16 ∧ cmd % 2 = 1 ∧ s.regs.procEn = true ∧ s'.regs.lastEdge = t))

/-- R14: only ENABLE without DISABLE, or RESET, leaves the state DISABLED. -/
def Obligations.OnlyEnableOrResetLeavesDisabled : Prop :=
  ∀ s s' : State, step s = .next s' → s.regs.procEn = false → s'.regs.procEn = true →
    ∃ cmd t, nextCycle s.stim = some (cmd, t) ∧
      (16 ≤ cmd ∨ (cmd.testBit 1 = true ∧ cmd.testBit 2 = false))

/-- R25 (derived there): in the state after a completion the count is 0, and the block is disabled unless
the same bundle carried ENABLE without DISABLE. -/
def Obligations.CompletionClosesTheGate : Prop :=
  ∀ (s s' : State) (cmd t : Nat), nextCycle s.stim = some (cmd, t) → step s = .next s' →
    s'.regs.done = true →
    s'.regs.bitCount = 0#6 ∧
      (s'.regs.procEn = true ↔ cmd.testBit 1 = true ∧ cmd.testBit 2 = false)

/-- R24, R25, R12: from every state that meets the invariant (count below 32, count 0 while `done`, timestamp
in its width), a step leads to one that meets it. -/
def Obligations.EveryStepKeepsTheInvariant : Prop :=
  ∀ s s' : State, s.Inv → step s = .next s' → s'.Inv

/-- The reset state meets the invariant, for every choice of the parameters. -/
def Obligations.ResetMeetsTheInvariant : Prop :=
  State.reset.Inv ∧ ∀ c : Config, (State.resetOf c).Inv

/-- R87: no operation stops, in any state; and a machine whose host presents only lines that fit the ports
runs for any number of steps. -/
def Obligations.NoOperationRaisesAnException : Prop :=
  (∀ (i : Instr) (s : State), ∃ t, exec i s = .next t) ∧
  (∀ s : State, (∀ l ∈ s.stim, presentable s.cfg l = true) → ∀ n, RunsSafely n s)

/-- R6, R11: no step changes a parameter; a step takes one cycle off the list and the queries in front of it. -/
def Obligations.StepsKeepTheParameters : Prop :=
  ∀ s s' : State, step s = .next s' → s'.cfg = s.cfg ∧ s'.stim = linesAfter s.stim

/-- R6: `NOM_AGC` and `NOM_SPACE` have no effect: a step with other values of them does the same. -/
def Obligations.HeaderConstantsHaveNoEffect : Prop :=
  ∀ (s s' : State) (a b : Nat), step s = .next s' →
    step { s with cfg := { s.cfg with nomAgc := a, nomSpace := b } } =
      .next { s' with cfg := { s'.cfg with nomAgc := a, nomSpace := b } }

/-! Runs. -/

/-- R91, R100 (derived there): once disabled, the block holds every register but `done` through any number of
cycles that carry only EDGE and DISABLE, whatever the times. -/
def Obligations.DisabledBlockHolds : Prop :=
  ∀ (lines rest : List Line) (s : State), lines ≠ [] → s.regs.procEn = false → s.stim = lines ++ rest →
    (∀ l ∈ lines, ∃ cmd t, l = .cycle cmd t ∧ cmd ∈ [0b00000, 0b00001, 0b00100, 0b00101] ∧ t < s.cfg.tsMod) →
    Host.Core.run Sys2Proof.core lines.length s =
      .next { s with regs := { s.regs with done := false }, stim := rest }

/-- R66, R28 (derived there): new bits shift in on top of what `acc_packet` holds, the first received ending
highest, as long as the count stays below 32. -/
def Obligations.NewBitsShiftInOverTheOld : Prop :=
  ∀ (s : State) (bs : List Bool) (rest : List Line), bs ≠ [] → s.regs.procEn = true →
    s.regs.bitCount.toNat + bs.length ≤ 31 →
    s.cfg.nomOne < s.cfg.tsMod → s.cfg.nomZero < s.cfg.tsMod → classify s.cfg s.cfg.nomZero = .zero →
    s.stim = bitLines s.cfg s.regs.lastEdge bs ++ rest →
    Host.Core.run Sys2Proof.core bs.length s = .next { s with
      regs := { s.regs with
        accPacket := BitVec.ofNat 32 (bs.foldl (fun a b => 2 * a + b.toNat) s.regs.accPacket.toNat)
        bitCount := BitVec.ofNat 6 (s.regs.bitCount.toNat + bs.length)
        lastEdge := (bitTimes s.cfg s.regs.lastEdge bs).getLastD s.regs.lastEdge
        done := false }
      stim := rest }

/-- R47, R28, R61 (derived there): the 32 edges of `FRAME p`, from an enabled block with count 0, end with `p` in
`acc_packet`, completed and signalled, and the block disabled. -/
def Obligations.FrameFillsThePacket : Prop :=
  ∀ (s : State) (p : Packet) (rest : List Line), s.regs.procEn = true → s.regs.bitCount = 0#6 →
    s.cfg.nomOne < s.cfg.tsMod → s.cfg.nomZero < s.cfg.tsMod →
    classify s.cfg s.cfg.nomZero = .zero →
    s.stim = frameLines s.cfg s.regs.lastEdge p ++ rest →
    Host.Core.run Sys2Proof.core 32 s = .next { s with
      regs := ⟨false, p, 0#6, p,
        (bitTimes s.cfg s.regs.lastEdge (frameBits p)).getLastD s.regs.lastEdge, true, p⟩
      stim := rest }

/-- R58, R91, R100 (derived there): on every disabled block, a step whose vector carries no command but EDGE and
DISABLE keeps every register but `done`, whatever queries stand in front. -/
def Obligations.DisabledStepKeepsTheRegisters : Prop :=
  ∀ (s s' : State) (cmd t : Nat), s.regs.procEn = false → nextCycle s.stim = some (cmd, t) →
    cmd ∈ [0b00000, 0b00001, 0b00100, 0b00101] → step s = .next s' →
    s'.regs = { s.regs with done := false }
end

