-- ==== Sys2Proof/Laws/Classifier.lean ====
section
/-! SUPPORT. What the classifier answers. -/

namespace Sys2Proof.Machine

variable {c : Config}

/-- Membership as the two integer comparisons. -/
theorem inWin_iff {iv nom : Nat} :
    inWin c iv nom = true ↔
      (nom : Int) * (100 - (c.devPct : Int)) ≤ 100 * iv ∧ 100 * (iv : Int) ≤ nom * (100 + (c.devPct : Int)) := by
  simp [inWin]

/-- At a deviation below 100 percent no window holds the zero interval (40_classifier.md R55). -/
theorem inWin_zero_interval {nom : Nat} (hdev : c.devPct < 100) (hnom : 0 < nom) : inWin c 0 nom = false := by
  have hpos : (0 : Int) < (nom : Int) * (100 - (c.devPct : Int)) := by
    apply Int.mul_pos <;> omega
  rw [Bool.eq_false_iff, ne_eq, inWin_iff]
  omega

/-- The classifier depends on the deviation and the three nominals alone. -/
theorem classify_congr {c' : Config} (iv : Nat) (hd : c'.devPct = c.devPct) (h1 : c'.nomOne = c.nomOne)
    (h0 : c'.nomZero = c.nomZero) (hr : c'.nomRepeat = c.nomRepeat) : classify c' iv = classify c iv := by
  have hw (nom : Nat) : inWin c' iv nom = inWin c iv nom := by rw [inWin, inWin, hd]
  simp only [classify, hw, h1, h0, hr]

end Sys2Proof.Machine
end

