-- ==== Sys2Proof/Laws/Decode.lean ====
section
/-! SUPPORT. What the decoder answers for a vector and for a code. -/

namespace Sys2Proof

/-- What holds of every vector written as a number holds of every vector. -/
theorem cmdVec_cases (P : CmdVec → Prop) (h : ∀ n < 32, P (BitVec.ofNat 5 n)) (v : CmdVec) : P v := by
  simpa using h v.toNat v.isLt

/-- The commands of a vector, bit by bit (30_encoding.md R37, R44). -/
theorem decodeCmd_eq (v : CmdVec) (t : Nat) :
    decodeCmd v t =
      if v.getLsbD 4 then [.reset]
      else if v = 0 then [.nop]
      else (if v.getLsbD 0 then [.edge t] else []) ++ (if v.getLsbD 3 then [.clear] else []) ++
        (if v.getLsbD 1 then [.enable] else []) ++ (if v.getLsbD 2 then [.disable] else []) := by
  revert v
  refine cmdVec_cases _ fun n hn => ?_
  interval_cases n <;> simp [decodeCmd, cmdRows, Row.matched]

/-- A code selects exactly one query. -/
theorem decodeQuery_length (q : QCode) : (decodeQuery q).length = 1 := by
  revert q
  decide

/-- The decoder accepts the numbers that fit the ports. -/
theorem decodeLine_cycle {c : Config} {cmd t : Nat} (hcmd : cmd < 32) (ht : t < c.tsMod) :
    decodeLine c (.cycle cmd t) = .ok (decodeCmd (BitVec.ofNat 5 cmd) t) := by
  simp [decodeLine, Nat.not_le.2 hcmd, Nat.not_le.2 ht]

theorem decodeLine_query {c : Config} {q : Nat} (hq : q < 16) :
    decodeLine c (.query q) = .ok (decodeQuery (BitVec.ofNat 4 q)) := by
  simp [decodeLine, Nat.not_le.2 hq]

/-- What is accepted as a cycle fits the ports. -/
theorem decodeLine_cycle_ok {c : Config} {cmd t : Nat} {ops : List Instr}
    (h : decodeLine c (.cycle cmd t) = .ok ops) :
    cmd < 32 ∧ t < c.tsMod ∧ ops = decodeCmd (BitVec.ofNat 5 cmd) t := by
  by_cases hcmd : cmd < 32
  · by_cases ht : t < c.tsMod
    · rw [decodeLine_cycle hcmd ht] at h
      exact ⟨hcmd, ht, (Except.ok.inj h).symm⟩
    · simp [decodeLine, Nat.not_lt.1 ht] at h
      split at h <;> cases h
  · simp [decodeLine, Nat.not_lt.1 hcmd] at h

/-- What is accepted as a query fits the port. -/
theorem decodeLine_query_ok {c : Config} {q : Nat} {ops : List Instr}
    (h : decodeLine c (.query q) = .ok ops) : q < 16 ∧ ops = decodeQuery (BitVec.ofNat 4 q) := by
  by_cases hq : q < 16
  · rw [decodeLine_query hq] at h
    exact ⟨hq, (Except.ok.inj h).symm⟩
  · simp [decodeLine, Nat.not_lt.1 hq] at h

/-- The encoding of an EDGE alone (30_encoding.md R48). -/
theorem encode_edge (t : Nat) : encode (.edge t) = .cycle 1 t := by
  simp [encode, queryCode, encodeBundle, commandBits, bundleTime]

end Sys2Proof
end

