-- ==== Sys2Proof/Laws/Operands.lean ====
section
/-! SUPPORT. What the operand forms give: EDGE's timestamp and the interval. -/

namespace Sys2Proof.Machine

variable (c : Config)

theorem tsMod_pos : 0 < c.tsMod := Nat.two_pow_pos _

/-- EDGE's operand fits its port. -/
theorem edgeOperand_lt (t : Nat) : edgeOperand c t < c.tsMod := Nat.mod_lt _ (tsMod_pos c)

/-- A timestamp that fits its port is the operand. -/
theorem edgeOperand_of_lt {t : Nat} (h : t < c.tsMod) : edgeOperand c t = t := Nat.mod_eq_of_lt h

/-- The interval as an integer is the residue of the difference. -/
theorem interval_cast (t last : Nat) :
    (interval c t last : Int) = ((t : Int) - last) % (c.tsMod : Int) := by
  have hpos : (c.tsMod : Int) ≠ 0 := by have := tsMod_pos c; omega
  simpa [interval] using Int.emod_nonneg ((t : Int) - last) hpos

/-- The interval is a natural number below the clock's period. -/
theorem interval_lt_tsMod (t last : Nat) : interval c t last < c.tsMod := by
  have hpos : (0 : Int) < c.tsMod := by have := tsMod_pos c; omega
  have h := interval_cast c t last
  have := Int.emod_lt_of_pos ((t : Int) - last) hpos
  omega

/-- An edge `d` after the last one, in the clock's arithmetic, gives the interval `d` when `d` fits. -/
theorem interval_after (last : Nat) {d : Nat} (hd : d < c.tsMod) :
    interval c ((last + d) % c.tsMod) last = d := by
  have h := interval_cast c ((last + d) % c.tsMod) last
  have h2 : ((((last + d) % c.tsMod : Nat) : Int) - last) % (c.tsMod : Int) = (d : Int) % c.tsMod := by
    push_cast
    rw [Int.emod_sub_emod]
    congr 1
    omega
  rw [h2, ← Int.natCast_mod, Nat.mod_eq_of_lt hd] at h
  exact_mod_cast h

/-- Two edges at one time are no interval apart. -/
theorem interval_self (t : Nat) : interval c t t = 0 := by simp [interval]

end Sys2Proof.Machine
end

