-- ==== Sys2Proof/Laws/State.lean ====
section
/-! SUPPORT. One lemma per field per update of the state, all true by definition. -/

namespace Sys2Proof.Machine

variable (r : Regs) (s : State)

@[simp] theorem Regs.shiftIn_procEn (b : Bool) : (r.shiftIn b).procEn = r.procEn := rfl
@[simp] theorem Regs.shiftIn_accPacket (b : Bool) : (r.shiftIn b).accPacket = (r.accPacket <<< 1) ||| zextBit b := rfl
@[simp] theorem Regs.shiftIn_bitCount (b : Bool) : (r.shiftIn b).bitCount = r.bitCount := rfl
@[simp] theorem Regs.shiftIn_completedPacket (b : Bool) : (r.shiftIn b).completedPacket = r.completedPacket := rfl
@[simp] theorem Regs.shiftIn_lastEdge (b : Bool) : (r.shiftIn b).lastEdge = r.lastEdge := rfl
@[simp] theorem Regs.shiftIn_done (b : Bool) : (r.shiftIn b).done = r.done := rfl
@[simp] theorem Regs.shiftIn_donePacket (b : Bool) : (r.shiftIn b).donePacket = r.donePacket := rfl

@[simp] theorem Regs.countBit_procEn : (r.countBit).procEn = r.procEn := rfl
@[simp] theorem Regs.countBit_accPacket : (r.countBit).accPacket = r.accPacket := rfl
@[simp] theorem Regs.countBit_bitCount : (r.countBit).bitCount = r.bitCount + 1#6 := rfl
@[simp] theorem Regs.countBit_completedPacket : (r.countBit).completedPacket = r.completedPacket := rfl
@[simp] theorem Regs.countBit_lastEdge : (r.countBit).lastEdge = r.lastEdge := rfl
@[simp] theorem Regs.countBit_done : (r.countBit).done = r.done := rfl
@[simp] theorem Regs.countBit_donePacket : (r.countBit).donePacket = r.donePacket := rfl

@[simp] theorem Regs.endPacket_procEn : (r.endPacket).procEn = false := rfl
@[simp] theorem Regs.endPacket_accPacket : (r.endPacket).accPacket = r.accPacket := rfl
@[simp] theorem Regs.endPacket_bitCount : (r.endPacket).bitCount = 0#6 := rfl
@[simp] theorem Regs.endPacket_completedPacket : (r.endPacket).completedPacket = r.completedPacket := rfl
@[simp] theorem Regs.endPacket_lastEdge : (r.endPacket).lastEdge = r.lastEdge := rfl
@[simp] theorem Regs.endPacket_done : (r.endPacket).done = r.done := rfl
@[simp] theorem Regs.endPacket_donePacket : (r.endPacket).donePacket = r.donePacket := rfl

@[simp] theorem Regs.storeCompleted_procEn : (r.storeCompleted).procEn = r.procEn := rfl
@[simp] theorem Regs.storeCompleted_accPacket : (r.storeCompleted).accPacket = r.accPacket := rfl
@[simp] theorem Regs.storeCompleted_bitCount : (r.storeCompleted).bitCount = r.bitCount := rfl
@[simp] theorem Regs.storeCompleted_completedPacket : (r.storeCompleted).completedPacket = r.accPacket := rfl
@[simp] theorem Regs.storeCompleted_lastEdge : (r.storeCompleted).lastEdge = r.lastEdge := rfl
@[simp] theorem Regs.storeCompleted_done : (r.storeCompleted).done = r.done := rfl
@[simp] theorem Regs.storeCompleted_donePacket : (r.storeCompleted).donePacket = r.donePacket := rfl

@[simp] theorem Regs.emitComplete_procEn : (r.emitComplete).procEn = r.procEn := rfl
@[simp] theorem Regs.emitComplete_accPacket : (r.emitComplete).accPacket = r.accPacket := rfl
@[simp] theorem Regs.emitComplete_bitCount : (r.emitComplete).bitCount = r.bitCount := rfl
@[simp] theorem Regs.emitComplete_completedPacket : (r.emitComplete).completedPacket = r.completedPacket := rfl
@[simp] theorem Regs.emitComplete_lastEdge : (r.emitComplete).lastEdge = r.lastEdge := rfl
@[simp] theorem Regs.emitComplete_done : (r.emitComplete).done = true := rfl
@[simp] theorem Regs.emitComplete_donePacket : (r.emitComplete).donePacket = r.accPacket := rfl

@[simp] theorem Regs.lowerDone_procEn : (r.lowerDone).procEn = r.procEn := rfl
@[simp] theorem Regs.lowerDone_accPacket : (r.lowerDone).accPacket = r.accPacket := rfl
@[simp] theorem Regs.lowerDone_bitCount : (r.lowerDone).bitCount = r.bitCount := rfl
@[simp] theorem Regs.lowerDone_completedPacket : (r.lowerDone).completedPacket = r.completedPacket := rfl
@[simp] theorem Regs.lowerDone_lastEdge : (r.lowerDone).lastEdge = r.lastEdge := rfl
@[simp] theorem Regs.lowerDone_done : (r.lowerDone).done = false := rfl
@[simp] theorem Regs.lowerDone_donePacket : (r.lowerDone).donePacket = r.donePacket := rfl

@[simp] theorem Regs.recordEdge_procEn (t : Nat) : (r.recordEdge t).procEn = r.procEn := rfl
@[simp] theorem Regs.recordEdge_accPacket (t : Nat) : (r.recordEdge t).accPacket = r.accPacket := rfl
@[simp] theorem Regs.recordEdge_bitCount (t : Nat) : (r.recordEdge t).bitCount = r.bitCount := rfl
@[simp] theorem Regs.recordEdge_completedPacket (t : Nat) : (r.recordEdge t).completedPacket = r.completedPacket := rfl
@[simp] theorem Regs.recordEdge_lastEdge (t : Nat) : (r.recordEdge t).lastEdge = t := rfl
@[simp] theorem Regs.recordEdge_done (t : Nat) : (r.recordEdge t).done = r.done := rfl
@[simp] theorem Regs.recordEdge_donePacket (t : Nat) : (r.recordEdge t).donePacket = r.donePacket := rfl

@[simp] theorem Regs.setProcEn_procEn (en : Bool) : (r.setProcEn en).procEn = en := rfl
@[simp] theorem Regs.setProcEn_accPacket (en : Bool) : (r.setProcEn en).accPacket = r.accPacket := rfl
@[simp] theorem Regs.setProcEn_bitCount (en : Bool) : (r.setProcEn en).bitCount = r.bitCount := rfl
@[simp] theorem Regs.setProcEn_completedPacket (en : Bool) : (r.setProcEn en).completedPacket = r.completedPacket := rfl
@[simp] theorem Regs.setProcEn_lastEdge (en : Bool) : (r.setProcEn en).lastEdge = r.lastEdge := rfl
@[simp] theorem Regs.setProcEn_done (en : Bool) : (r.setProcEn en).done = r.done := rfl
@[simp] theorem Regs.setProcEn_donePacket (en : Bool) : (r.setProcEn en).donePacket = r.donePacket := rfl

@[simp] theorem Regs.clearPacket_procEn : (r.clearPacket).procEn = r.procEn := rfl
@[simp] theorem Regs.clearPacket_accPacket : (r.clearPacket).accPacket = 0#32 := rfl
@[simp] theorem Regs.clearPacket_bitCount : (r.clearPacket).bitCount = 0#6 := rfl
@[simp] theorem Regs.clearPacket_completedPacket : (r.clearPacket).completedPacket = r.completedPacket := rfl
@[simp] theorem Regs.clearPacket_lastEdge : (r.clearPacket).lastEdge = r.lastEdge := rfl
@[simp] theorem Regs.clearPacket_done : (r.clearPacket).done = r.done := rfl
@[simp] theorem Regs.clearPacket_donePacket : (r.clearPacket).donePacket = r.donePacket := rfl

/-- RESET leaves nothing of the registers it found (70_reset_and_hazards.md R97). -/
@[simp] theorem Regs.applyReset_eq : r.applyReset = Regs.reset := rfl
@[simp] theorem Regs.reset_procEn : Regs.reset.procEn = true := rfl
@[simp] theorem Regs.reset_accPacket : Regs.reset.accPacket = 0#32 := rfl
@[simp] theorem Regs.reset_bitCount : Regs.reset.bitCount = 0#6 := rfl
@[simp] theorem Regs.reset_completedPacket : Regs.reset.completedPacket = 0#32 := rfl
@[simp] theorem Regs.reset_lastEdge : Regs.reset.lastEdge = 0 := rfl
@[simp] theorem Regs.reset_done : Regs.reset.done = false := rfl
@[simp] theorem Regs.reset_donePacket : Regs.reset.donePacket = 0#32 := rfl

@[simp] theorem State.mapRegs_cfg (f : Regs → Regs) : (s.mapRegs f).cfg = s.cfg := rfl
@[simp] theorem State.mapRegs_regs (f : Regs → Regs) : (s.mapRegs f).regs = f s.regs := rfl
@[simp] theorem State.mapRegs_stim (f : Regs → Regs) : (s.mapRegs f).stim = s.stim := rfl

@[simp] theorem State.beginCycle_cfg : (s.beginCycle).cfg = s.cfg := rfl
@[simp] theorem State.beginCycle_regs : (s.beginCycle).regs = s.regs.lowerDone := rfl
@[simp] theorem State.beginCycle_stim : (s.beginCycle).stim = s.stim := rfl

end Sys2Proof.Machine
end

