-- ==== Sys2Proof/Laws/Edge.lean ====
section
/-! SUPPORT. What an EDGE does to the registers, said once; later proofs cite `Regs.edge_cases` and do not unfold `Regs.edge`. -/

namespace Sys2Proof.Machine

variable {c : Config} {t : Nat} {r : Regs}

/-- Only a count of 31 reaches 32 with the next bit, at six bits. -/
theorem packetFull_succ_iff {n : BitCount} : packetFull (n + 1#6) = true ↔ n = 31#6 := by
  revert n
  decide

/-- A data bit that is not the 32nd. -/
theorem Regs.dataBit_of_ne {b : Bool} (h : r.bitCount ≠ 31#6) : r.dataBit b = (r.shiftIn b).countBit := by
  have : ¬ packetFull (r.bitCount + 1#6) = true := fun hf => h (packetFull_succ_iff.1 hf)
  simp [Regs.dataBit, this]

/-- The 32nd data bit. -/
theorem Regs.dataBit_of_eq {b : Bool} (h : r.bitCount = 31#6) :
    r.dataBit b = (r.shiftIn b).countBit.endPacket.storeCompleted.emitComplete := by
  simp [Regs.dataBit, packetFull_succ_iff.2 h]

/-- The class of the interval an EDGE at `t` ends. -/
def edgeClassOf (c : Config) (t : Nat) (r : Regs) : EdgeClass :=
  classify c (interval c (edgeOperand c t) r.lastEdge)

/-- Everything an EDGE can do (41_edge.md R58, R60 to R64). -/
theorem Regs.edge_cases (c : Config) (t : Nat) (r : Regs) :
    (r.procEn = false ∧ r.edge c t = r) ∨
    (r.procEn = true ∧
      ((∃ b, edgeClassOf c t r = (if b then .one else .zero) ∧
          ((r.bitCount ≠ 31#6 ∧ r.edge c t = ((r.shiftIn b).countBit).recordEdge (edgeOperand c t)) ∨
           (r.bitCount = 31#6 ∧ r.edge c t =
              ((r.shiftIn b).countBit.endPacket.storeCompleted.emitComplete).recordEdge (edgeOperand c t)))) ∨
       (edgeClassOf c t r = .repeatCode ∧ r.edge c t = (r.endPacket.emitComplete).recordEdge (edgeOperand c t)) ∨
       (edgeClassOf c t r = .unclassified ∧ r.edge c t = r.recordEdge (edgeOperand c t)))) := by
  cases hen : r.procEn with
  | false => exact .inl ⟨rfl, by simp [Regs.edge, hen]⟩
  | true =>
    refine .inr ⟨rfl, ?_⟩
    have hedge : r.edge c t = (r.applyClass (edgeClassOf c t r)).recordEdge (edgeOperand c t) := by
      simp [Regs.edge, hen, edgeClassOf]
    have hbit (b : Bool) (hb : r.applyClass (edgeClassOf c t r) = r.dataBit b) :
        (r.bitCount ≠ 31#6 ∧ r.edge c t = ((r.shiftIn b).countBit).recordEdge (edgeOperand c t)) ∨
        (r.bitCount = 31#6 ∧ r.edge c t =
          ((r.shiftIn b).countBit.endPacket.storeCompleted.emitComplete).recordEdge (edgeOperand c t)) := by
      by_cases h31 : r.bitCount = 31#6
      · exact .inr ⟨h31, by rw [hedge, hb, Regs.dataBit_of_eq h31]⟩
      · exact .inl ⟨h31, by rw [hedge, hb, Regs.dataBit_of_ne h31]⟩
    cases hcls : edgeClassOf c t r with
    | one => exact .inl ⟨true, rfl, hbit true (by rw [hcls]; rfl)⟩
    | zero => exact .inl ⟨false, rfl, hbit false (by rw [hcls]; rfl)⟩
    | repeatCode => exact .inr (.inl ⟨rfl, by rw [hedge, hcls]; rfl⟩)
    | unclassified => exact .inr (.inr ⟨rfl, by rw [hedge, hcls]; rfl⟩)

end Sys2Proof.Machine
end

