-- ==== Sys2Proof/Laws/Exec.lean ====
section
/-! SUPPORT. What an operation, a bundle and a step can do: the lemmas a proof about a run cites. -/

namespace Sys2Proof.Machine

/-- What one operation does to the registers; a query does nothing to them. -/
def regsAfter (c : Config) : Instr → Regs → Regs
  | .reset => Regs.applyReset
  | .edge t => Regs.edge c t
  | .enable => Regs.setProcEn true
  | .disable => Regs.setProcEn false
  | .clear => Regs.clearPacket
  | .nop => Regs.lowerDone
  | .qState | .qProcEn | .qRawPacket | .qAddress | .qExtAddress | .qData | .qExtData
  | .qAddrValid | .qDataValid | .qBitCount | .qCompletedPacket | .qDonePacket | .qDone
  | .qReservedD | .qReservedEF _ => id

/-- An operation always answers, and this is all it does. -/
theorem exec_eq (i : Instr) (s : State) :
    exec i s = .next { s with regs := regsAfter s.cfg i s.regs } := by
  cases i <;> rfl

/-- A bundle always answers, and this is all it does. -/
theorem runOps_eq (ops : List Instr) (s : State) :
    runOps ops s = .next { s with regs := ops.foldl (fun r i => regsAfter s.cfg i r) s.regs } := by
  induction ops generalizing s with
  | nil => rfl
  | cons i ops ih => simp only [runOps, exec_eq, ih, List.foldl_cons]

/-- A cycle whose numbers fit the ports: the flag falls, then the commands of the vector apply in order. -/
theorem runLine_cycle {cmd t : Nat} {s : State} (hcmd : cmd < 32) (ht : t < s.cfg.tsMod) :
    runLine (.cycle cmd t) s = .next { s with
      regs := (decodeCmd (BitVec.ofNat 5 cmd) t).foldl (fun r i => regsAfter s.cfg i r) s.regs.lowerDone } := by
  simp only [runLine, decodeLine_cycle hcmd ht, presentLine, runOps_eq]
  rfl

/-- A query changes nothing. -/
theorem exec_query {i : Instr} (s : State) (hi : queryCode i ≠ none) : exec i s = .next s := by
  cases i <;> first | rfl | exact absurd rfl hi

/-- The query a code selects is a query, with that code. -/
theorem decodeQuery_eq {q : Nat} (hq : q < 16) :
    ∃ i, decodeQuery (BitVec.ofNat 4 q) = [i] ∧ queryCode i = some q := by
  interval_cases q <;> exact ⟨_, rfl, rfl⟩

/-- A query whose code fits the port changes nothing. -/
theorem runLine_query {q : Nat} {s : State} (hq : q < 16) : runLine (.query q) s = .next s := by
  obtain ⟨i, hi, hc⟩ := decodeQuery_eq hq
  have he : exec i s = .next s := exec_query s (by simp [hc])
  simp only [runLine, decodeLine_query hq, presentLine, hi, runOps, he]

/-- A line that answers fits the ports, and the registers are those of its commands. -/
theorem runLine_inv {l : Line} {s s' : State} (h : runLine l s = .next s') :
    (∃ cmd t, l = .cycle cmd t ∧ cmd < 32 ∧ t < s.cfg.tsMod ∧
      s' = { s with regs :=
        (decodeCmd (BitVec.ofNat 5 cmd) t).foldl (fun r i => regsAfter s.cfg i r) s.regs.lowerDone }) ∨
    (∃ q, l = .query q ∧ q < 16 ∧ s' = s) := by
  cases l with
  | cycle cmd t =>
    cases hd : decodeLine s.cfg (.cycle cmd t) with
    | error e => simp [runLine, hd] at h
    | ok ops =>
      obtain ⟨hcmd, ht, -⟩ := decodeLine_cycle_ok hd
      rw [runLine_cycle hcmd ht] at h
      exact .inl ⟨cmd, t, rfl, hcmd, ht, (Host.Outcome.next.inj h).symm⟩
  | query q =>
    cases hd : decodeLine s.cfg (.query q) with
    | error e => simp [runLine, hd] at h
    | ok ops =>
      obtain ⟨hq, -⟩ := decodeLine_query_ok hd
      rw [runLine_query hq] at h
      exact .inr ⟨q, rfl, hq, (Host.Outcome.next.inj h).symm⟩

@[simp] theorem presented_nil : presented [] = [] := rfl
@[simp] theorem presented_cycle (cmd t : Nat) (ls : List Line) : presented (.cycle cmd t :: ls) = [.cycle cmd t] := rfl
@[simp] theorem presented_query (q : Nat) (ls : List Line) : presented (.query q :: ls) = .query q :: presented ls := rfl
@[simp] theorem nextCycle_nil : nextCycle [] = none := rfl
@[simp] theorem nextCycle_cycle (cmd t : Nat) (ls : List Line) : nextCycle (.cycle cmd t :: ls) = some (cmd, t) := rfl
@[simp] theorem nextCycle_query (q : Nat) (ls : List Line) : nextCycle (.query q :: ls) = nextCycle ls := rfl
@[simp] theorem linesAfter_nil : linesAfter [] = [] := rfl
@[simp] theorem linesAfter_cycle (cmd t : Nat) (ls : List Line) : linesAfter (.cycle cmd t :: ls) = ls := rfl
@[simp] theorem linesAfter_query (q : Nat) (ls : List Line) : linesAfter (.query q :: ls) = linesAfter ls := rfl

/-- The vector and the time a step applies: those of the next cycle, or no command. -/
def cycleInput (ls : List Line) : Nat × Nat := (nextCycle ls).getD (0, 0)

@[simp] theorem cycleInput_nil : cycleInput [] = (0, 0) := rfl
@[simp] theorem cycleInput_cycle (cmd t : Nat) (ls : List Line) : cycleInput (.cycle cmd t :: ls) = (cmd, t) := rfl
@[simp] theorem cycleInput_query (q : Nat) (ls : List Line) : cycleInput (.query q :: ls) = cycleInput ls := rfl

/-- With no query first, a step runs one line. -/
theorem step_nil {s : State} (hs : s.stim = []) : step s = runLine idleLine s := by
  obtain ⟨cfg, regs, stim⟩ := s
  subst hs
  rfl

theorem step_cons_cycle {s : State} {cmd t : Nat} {ls : List Line} (hs : s.stim = .cycle cmd t :: ls) :
    step s = runLine (.cycle cmd t) { s with stim := ls } := by simp only [step, hs, runCycle]

/-- A query that fits the port changes nothing about the step it stands in front of. -/
theorem step_cons_query {s : State} {q : Nat} {ls : List Line} (hs : s.stim = .query q :: ls) (hq : q < 16) :
    step s = step { s with stim := ls } := by simp only [step, hs, runCycle, runLine_query hq]

@[simp] theorem State.withFetchWord_cfg (s : State) (nbits w : Nat) : (s.withFetchWord nbits w).cfg = s.cfg := rfl
@[simp] theorem State.withFetchWord_regs (s : State) (nbits w : Nat) : (s.withFetchWord nbits w).regs = s.regs := rfl
@[simp] theorem State.withFetchWord_stim (s : State) (nbits w : Nat) :
    (s.withFetchWord nbits w).stim = tableLine nbits w :: s.stim := rfl

/-- CLEAR, ENABLE and DISABLE of a vector, in their order (30_encoding.md R44). -/
def controlsAfter (cmd : Nat) (r : Regs) : Regs :=
  let r := if cmd.testBit 3 then r.clearPacket else r
  let r := if cmd.testBit 1 then r.setProcEn true else r
  if cmd.testBit 2 then r.setProcEn false else r

section
variable (cmd : Nat) (r : Regs)

@[simp] theorem controlsAfter_done : (controlsAfter cmd r).done = r.done := by
  unfold controlsAfter; dsimp only; split_ifs <;> rfl
@[simp] theorem controlsAfter_donePacket : (controlsAfter cmd r).donePacket = r.donePacket := by
  unfold controlsAfter; dsimp only; split_ifs <;> rfl
@[simp] theorem controlsAfter_completedPacket : (controlsAfter cmd r).completedPacket = r.completedPacket := by
  unfold controlsAfter; dsimp only; split_ifs <;> rfl
@[simp] theorem controlsAfter_lastEdge : (controlsAfter cmd r).lastEdge = r.lastEdge := by
  unfold controlsAfter; dsimp only; split_ifs <;> rfl
theorem controlsAfter_bitCount :
    (controlsAfter cmd r).bitCount = if cmd.testBit 3 then 0#6 else r.bitCount := by
  unfold controlsAfter; dsimp only; split_ifs <;> rfl
theorem controlsAfter_accPacket :
    (controlsAfter cmd r).accPacket = if cmd.testBit 3 then 0#32 else r.accPacket := by
  unfold controlsAfter; dsimp only; split_ifs <;> rfl
theorem controlsAfter_procEn :
    (controlsAfter cmd r).procEn = if cmd.testBit 2 then false else if cmd.testBit 1 then true else r.procEn := by
  unfold controlsAfter; dsimp only; split_ifs <;> rfl

end

/-- The registers after a cycle: RESET alone, or the EDGE and then the controls (30_encoding.md R44). -/
def cycleRegs (c : Config) (cmd t : Nat) (r : Regs) : Regs :=
  if 16 ≤ cmd then Regs.reset
  else controlsAfter cmd (if cmd.testBit 0 then r.lowerDone.edge c t else r.lowerDone)

/-- The commands of a vector, one after the other, give `cycleRegs`. -/
theorem foldl_decodeCmd {cmd : Nat} (hcmd : cmd < 32) (c : Config) (t : Nat) (r : Regs) :
    (decodeCmd (BitVec.ofNat 5 cmd) t).foldl (fun r i => regsAfter c i r) r.lowerDone = cycleRegs c cmd t r := by
  rw [decodeCmd_eq]
  interval_cases cmd <;> rfl

/-- A step on queries and a cycle that all fit the ports answers: one bundle, and the lines it took go. -/
theorem step_of_presented : ∀ (ls : List Line) {s : State}, s.stim = ls →
    (∀ l ∈ presented ls, presentable s.cfg l = true) →
    step s = .next { s with
      regs := cycleRegs s.cfg (cycleInput ls).1 (cycleInput ls).2 s.regs, stim := linesAfter ls }
  | [], s, hs, _ => by
    rw [step_nil hs, idleLine, runLine_cycle (by decide) (Nat.two_pow_pos _), foldl_decodeCmd (by decide)]
    rw [linesAfter, ← hs]
    simp [hs]
  | .cycle cmd t :: ls, s, hs, h => by
    have hl : cmd < 32 ∧ t < s.cfg.tsMod := by simpa [presented, presentable] using h
    have hr := runLine_cycle (s := { s with stim := ls }) hl.1 hl.2
    rw [step_cons_cycle hs, hr, foldl_decodeCmd hl.1]
    rfl
  | .query q :: ls, s, hs, h => by
    simp only [presented, List.mem_cons, forall_eq_or_imp] at h
    rw [step_cons_query hs (by simpa [presentable] using h.1)]
    exact step_of_presented ls (s := { s with stim := ls }) rfl h.2

/-- A step on a cycle that fits the ports answers. -/
theorem step_of_cycle {s : State} {cmd t : Nat} {ls : List Line} (hs : s.stim = .cycle cmd t :: ls) (hcmd : cmd < 32)
    (ht : t < s.cfg.tsMod) : step s = .next { s with regs := cycleRegs s.cfg cmd t s.regs, stim := ls } := by
  have h := step_of_presented _ hs (by simpa [presented, presentable] using ⟨hcmd, ht⟩)
  simpa [linesAfter] using h

/-- A line that does not fit the ports is refused by name. -/
theorem runLine_malformed {l : Line} {s : State} (h : presentable s.cfg l = false) :
    ∃ e, runLine l s = .refused (.malformedLine e) := by
  cases l with
  | cycle cmd t =>
    by_cases hc : 2 ^ 5 ≤ cmd
    · exact ⟨.cmdTooWide, by simp only [runLine, decodeLine, if_pos hc]⟩
    · have ht : s.cfg.tsMod ≤ t := by simp [presentable] at h; omega
      exact ⟨.timeTooWide, by simp only [runLine, decodeLine, if_neg hc, if_pos ht]⟩
  | query q =>
    have hq : 2 ^ 4 ≤ q := by simpa [presentable] using h
    exact ⟨.qselTooWide, by simp only [runLine, decodeLine, if_pos hq]⟩

/-- A step that takes a line that does not fit the ports is refused by name. -/
theorem step_malformed : ∀ (ls : List Line) {s : State}, s.stim = ls →
    (∃ l ∈ presented ls, presentable s.cfg l = false) → ∃ e, step s = .refused (.malformedLine e)
  | [], _, _, h => by simp [presented] at h
  | .cycle cmd t :: ls, s, hs, h => by
    rw [step_cons_cycle hs]
    exact runLine_malformed (by simpa [presented] using h)
  | .query q :: ls, s, hs, h => by
    by_cases hq : q < 16
    · rw [step_cons_query hs hq]
      exact step_malformed ls (s := { s with stim := ls }) rfl (by simpa [presented, presentable, hq] using h)
    · obtain ⟨e, he⟩ := runLine_malformed (l := .query q) (s := { s with stim := ls }) (by simpa [presentable] using hq)
      exact ⟨e, by simp only [step, hs, runCycle, he]⟩

/-- Everything a step can do: it applies one bundle to the registers and takes the lines of one cycle, all of
which fit the ports. -/
theorem step_cases {s s' : State} (h : step s = .next s') :
    (∀ l ∈ presented s.stim, presentable s.cfg l = true) ∧
    s' = { s with regs := cycleRegs s.cfg (cycleInput s.stim).1 (cycleInput s.stim).2 s.regs
                  stim := linesAfter s.stim } := by
  by_cases hp : ∀ l ∈ presented s.stim, presentable s.cfg l = true
  · rw [step_of_presented _ rfl hp] at h
    exact ⟨hp, (Host.Outcome.next.inj h).symm⟩
  · push Not at hp
    simp only [ne_eq, Bool.not_eq_true] at hp
    obtain ⟨e, he⟩ := step_malformed _ rfl hp
    rw [he] at h
    cases h

/-- The input of a step that answers fits the ports. -/
theorem cycleInput_fits {c : Config} : ∀ (ls : List Line), (∀ l ∈ presented ls, presentable c l = true) →
    (cycleInput ls).1 < 32 ∧ (cycleInput ls).2 < c.tsMod
  | [], _ => ⟨by decide, Nat.two_pow_pos _⟩
  | .cycle _ _ :: _, h => by simpa [presented, presentable] using h
  | .query _ :: ls, h => cycleInput_fits ls fun l hl => h l (List.mem_cons_of_mem _ hl)

end Sys2Proof.Machine
end

