-- ==== Sys2Proof/Laws/PerInstr.lean ====
section
/-! SUPPORT. Statements about every instruction as syntax, one lemma per constructor. -/

namespace Sys2Proof.Laws.EncodesRow

/-- The encoding of an instruction matches one row of the opcode table, and that row is the instruction's
(30_encoding.md R42, R43). -/
def Statement (i : Instr) : Prop :=
  match encode i with
  | .cycle cmd t => cmd < 2 ^ 5 ∧ (cmdRows t).filter (·.matched (BitVec.ofNat 5 cmd)) =
      (cmdRows t).filter (fun r => r.instr == i)
  | .query q => q < 2 ^ 4 ∧ ((queryRows (q.testBit 0)).filter (·.matched (BitVec.ofNat 4 q))).map (·.instr) = [i]

theorem reset : Statement .reset := ⟨by decide, rfl⟩
theorem edge (t : Nat) : Statement (.edge t) := by
  constructor
  · simp [commandBits]
  · simp [bundleTime, commandBits, cmdRows, Row.matched]
theorem enable : Statement .enable := ⟨by decide, rfl⟩
theorem disable : Statement .disable := ⟨by decide, rfl⟩
theorem clear : Statement .clear := ⟨by decide, rfl⟩
theorem nop : Statement .nop := ⟨by decide, rfl⟩
theorem qState : Statement .qState := ⟨by decide, rfl⟩
theorem qProcEn : Statement .qProcEn := ⟨by decide, rfl⟩
theorem qRawPacket : Statement .qRawPacket := ⟨by decide, rfl⟩
theorem qAddress : Statement .qAddress := ⟨by decide, rfl⟩
theorem qExtAddress : Statement .qExtAddress := ⟨by decide, rfl⟩
theorem qData : Statement .qData := ⟨by decide, rfl⟩
theorem qExtData : Statement .qExtData := ⟨by decide, rfl⟩
theorem qAddrValid : Statement .qAddrValid := ⟨by decide, rfl⟩
theorem qDataValid : Statement .qDataValid := ⟨by decide, rfl⟩
theorem qBitCount : Statement .qBitCount := ⟨by decide, rfl⟩
theorem qCompletedPacket : Statement .qCompletedPacket := ⟨by decide, rfl⟩
theorem qDonePacket : Statement .qDonePacket := ⟨by decide, rfl⟩
theorem qDone : Statement .qDone := ⟨by decide, rfl⟩
theorem qReservedD : Statement .qReservedD := ⟨by decide, rfl⟩
theorem qReservedEF (low : Bool) : Statement (.qReservedEF low) := by
  cases low
  · exact ⟨by decide, rfl⟩
  · exact ⟨by decide, rfl⟩

end Sys2Proof.Laws.EncodesRow
end

