-- ==== Sys2Proof/Laws/Run.lean ====
section
/-! SUPPORT. Running the machine for several steps. -/

namespace Sys2Proof.Machine

/-- No step: the state as it is. -/
theorem run_zero (s : State) : Host.Core.run Sys2Proof.core 0 s = .next s := rfl

/-- A step that answers, and then the rest of the run. -/
theorem run_succ {s s' : State} (n : Nat) (h : step s = .next s') :
    Host.Core.run Sys2Proof.core (n + 1) s = Host.Core.run Sys2Proof.core n s' := by
  have hcore : Sys2Proof.core.step s = .next s' := h
  simp only [Host.Core.run, hcore]

end Sys2Proof.Machine
end

