-- ==== Sys2Proof/Tests/Slice0.lean ====
section
/-! SUPPORT. Tests on vectors of 95_test_vectors.md and on words written out from 30_encoding.md, and a witness for the hypotheses of every conditional statement. -/

namespace Sys2Proof.Tests

open Sys2Proof Sys2Proof.Machine

/-- Registers in the order of 95_test_vectors.md: en, acc, bc, comp, last, done, dpk. -/
def rg (en : Bool) (acc : Packet) (bc : BitCount) (comp : Packet) (last : Nat) (done : Bool) (dpk : Packet) : Regs :=
  ⟨en, acc, bc, comp, last, done, dpk⟩

/-- A state at the default parameters with these registers and these lines to come. -/
def st (r : Regs) (stim : List Line) : State := { State.reset with regs := r, stim := stim }

/-- The state a step answers, if it answers one. -/
def after (s : State) : Option State :=
  match step s with
  | .next t => some t
  | .fault _ => none
  | .refused _ => none

/-- The registers after one line at the default parameters. -/
def lineRegs (l : Line) (r : Regs) : Option Regs := (after (st r [l])).map (·.regs)

/-- What the query that a code decodes to answers. -/
def reads (code : Nat) (r : Regs) : Option QData :=
  match decodeLine Config.default (.query code) with
  | .ok [i] => answer i (st r [])
  | _ => none

/-- The start of 95_test_vectors.md: RS. -/
def rs : Regs := rg true 0 0 0 0 false 0
/-- One bit before the end of P1. -/
def p1Before : Regs := rg true 0x027D847B 31 0 101750 false 0
/-- The state P1 line 34 leaves. -/
def p1Done : Regs := rg false 0x04FB08F7 0 0x04FB08F7 104000 true 0x04FB08F7
/-- The end of P1. -/
def p1End : Regs := rg false 0x04FB08F7 0 0x04FB08F7 104000 false 0x04FB08F7

/-! WellFormed: an ill-formed term for each check. -/

/-- 30_encoding.md R38: a time of `2^TS_W` does not fit the port. -/
theorem test_wf_edge_time : wellFormed Config.default (.edge (2 ^ 64)) = false := by decide
theorem test_wf_edge_time_last : wellFormed Config.default (.edge (2 ^ 64 - 1)) = true := by decide
/-- 93_implementation_defined.md U4: no line holds two EDGEs. -/
theorem test_wf_two_edges : bundleWellFormed Config.default [.edge 1, .edge 2] = false := by decide
theorem test_wf_order : bundleWellFormed Config.default [.enable, .clear] = false := by decide
theorem test_wf_reset_alone : bundleWellFormed Config.default [.reset, .enable] = false := by decide
theorem test_wf_query_in_bundle : bundleWellFormed Config.default [.clear, .qState] = false := by decide
theorem test_wf_empty : bundleWellFormed Config.default [] = false := by decide
theorem test_wf_bundle_time : bundleWellFormed Config.default [.edge (2 ^ 64), .clear] = false := by decide
theorem test_wf_full_bundle : bundleWellFormed Config.default [.edge 7, .clear, .enable, .disable] = true := by decide

/-! Decode: words written out from 30_encoding.md R37, R42, R43, R48. -/

/-- Every command's own word, and P1's `EDGE 51125`. -/
theorem test_decode_commands :
    [decodeLine Config.default (.cycle 0b10000 0), decodeLine Config.default (.cycle 0b00001 51125),
     decodeLine Config.default (.cycle 0b00010 0), decodeLine Config.default (.cycle 0b00100 0),
     decodeLine Config.default (.cycle 0b01000 0), decodeLine Config.default (.cycle 0b00000 0)].map Except.toOption =
    [some [.reset], some [.edge 51125], some [.enable], some [.disable], some [.clear], some [.nop]] := by decide
/-- Every query's code (R43); code 0xF is the last row with its free bit set. -/
theorem test_decode_queries :
    (List.range 16).map (fun q => (decodeLine Config.default (.query q)).toOption) =
    [some [.qState], some [.qProcEn], some [.qRawPacket], some [.qAddress], some [.qExtAddress], some [.qData],
     some [.qExtData], some [.qAddrValid]] ++
    [some [.qDataValid], some [.qBitCount], some [.qCompletedPacket], some [.qDonePacket], some [.qDone],
     some [.qReservedD], some [.qReservedEF false], some [.qReservedEF true]] := by decide
/-- The bundles of 95_test_vectors.md 2.5 and 2.6, by their vectors. -/
theorem test_decode_bundles :
    [decodeLine Config.default (.cycle 0b00101 3250), decodeLine Config.default (.cycle 0b00011 5500),
     decodeLine Config.default (.cycle 0b01001 5500), decodeLine Config.default (.cycle 0b00110 0),
     decodeLine Config.default (.cycle 0b00111 104000), decodeLine Config.default (.cycle 0b11110 0)].map Except.toOption =
    [some [.edge 3250, .disable], some [.edge 5500, .enable], some [.edge 5500, .clear], some [.enable, .disable],
     some [.edge 104000, .enable, .disable], some [.reset]] := by decide
/-- A line that fits no port is rejected by name. -/
theorem test_decode_cmd_too_wide : decodeLine Config.default (.cycle 32 0) = .error .cmdTooWide := rfl
theorem test_decode_time_too_wide : decodeLine Config.default (.cycle 1 (2 ^ 64)) = .error .timeTooWide := rfl
theorem test_decode_qsel_too_wide : decodeLine Config.default (.query 16) = .error .qselTooWide := rfl
/-- Table numbers: the command byte with `edge_time` above it; a query's four bits. -/
theorem test_decode_table :
    [decodeTableWord 8 0b10000, decodeTableWord 8 0b00001, decodeTableWord 72 (0b00001 + 51125 * 2 ^ 8),
     decodeTableWord 8 0b00010, decodeTableWord 8 0b00100, decodeTableWord 8 0b01000, decodeTableWord 8 0b00000] =
    [some .reset, some (.edge 0), some (.edge 51125),
     some .enable, some .disable, some .clear, some .nop] := by decide
theorem test_decode_table_queries :
    [decodeTableWord 4 0x0, decodeTableWord 4 0x1, decodeTableWord 4 0x8, decodeTableWord 8 0xA,
     decodeTableWord 8 0xD, decodeTableWord 8 0xE] =
    [some .qState, some .qProcEn, some .qDataValid, some .qCompletedPacket,
     some .qReservedD, some (.qReservedEF false)] := by decide
/-- The bits of four items of one line add up (30_encoding.md R48). -/
theorem test_encode_bundle :
    encodeOps [.edge 3250, .clear, .enable, .disable] = .cycle 0b01111 3250 := by decide

/-! The classifier (95_test_vectors.md S1 and 2.1). -/

/-- The class at the default nominals and a deviation. -/
def cls (dev iv : Nat) : EdgeClass := classify { Config.default with devPct := dev } iv

theorem test_classify_default :
    [2026, 2250, 2474, 2025, 2475].map (cls 10) = List.replicate 5 .one ∧
    [1013, 1125, 1237].map (cls 10) = List.replicate 3 .zero ∧
    [90001, 100000, 109999, 90000, 110000, 96750].map (cls 10) = List.replicate 6 .repeatCode ∧
    [0, 1012, 1238, 2024, 2476, 89999, 110001, 4500, 9000, 13500, 2 ^ 64 - 2250].map (cls 10) =
      List.replicate 11 .unclassified := by decide
theorem test_classify_other_deviations :
    [2250, 2249, 1125, 1124, 100000].map (cls 0) = [.one, .unclassified, .zero, .unclassified, .repeatCode] ∧
    [1484, 1485, 1500, 1507, 1508].map (cls 34) = [.zero, .one, .one, .one, .one] ∧
    [0, 4500, 4501, 200000, 200001].map (cls 100) = [.one, .one, .repeatCode, .repeatCode, .unclassified] := by decide

/-! EDGE (95_test_vectors.md 2.2). -/

theorem test_edge_bits :
    [lineRegs (.cycle 1 52250) (rg true 0 0 0 50000 false 0),
     lineRegs (.cycle 1 53375) (rg true 0x1 1 0 52250 false 0),
     lineRegs (.cycle 1 53400) (rg true 0x2 2 0 53375 false 0),
     lineRegs (.cycle 1 53400) (rg true 0x2 2 0 53400 false 0),
     lineRegs (.cycle 1 51150) (rg true 0x2 2 0 53400 false 0),
     lineRegs (.cycle 1 55650) (rg false 0x2 2 0 53400 false 0),
     lineRegs (.cycle 1 1250) (rg true 0 0 0 (2 ^ 64 - 1000) false 0),
     lineRegs (.cycle 1 2250) (rg true 0xFFFFFFFF 5 0 0 false 0)] =
    [some (rg true 0x1 1 0 52250 false 0), some (rg true 0x2 2 0 53375 false 0),
     some (rg true 0x2 2 0 53400 false 0), some (rg true 0x2 2 0 53400 false 0), some (rg true 0x2 2 0 51150 false 0),
     some (rg false 0x2 2 0 53400 false 0), some (rg true 0x1 1 0 1250 false 0),
     some (rg true 0xFFFFFFFF 6 0 2250 false 0)] := by decide
theorem test_edge_completions :
    [lineRegs (.cycle 1 104000) p1Before,
     lineRegs (.cycle 1 106625) (rg true 0x5 3 0 6625 false 0),
     lineRegs (.cycle 1 106250) { p1End with procEn := true },
     lineRegs (.cycle 1 100000) rs, lineRegs (.cycle 1 1125) rs, lineRegs (.cycle 1 50000) rs] =
    [some p1Done, some (rg false 0x5 0 0 106625 true 0x5),
     some (rg true 0x09F611EF 1 0x04FB08F7 106250 false 0x04FB08F7),
     some (rg false 0 0 0 100000 true 0), some (rg true 0 1 0 1125 false 0),
     some (rg true 0 0 0 50000 false 0)] := by decide
/-- The interval across the clock wrap at the smallest legal `TS_W`. -/
theorem test_interval_wraps_at_17 :
    (after { st (rg true 0 0 0 (2 ^ 17 - 1000) false 0) [.cycle 1 1250] with
      cfg := { Config.default with tsW := 17 } }).map (·.regs) = some (rg true 0x1 1 0 1250 false 0) := by decide

/-! ENABLE, DISABLE, CLEAR, NOP, RESET (95_test_vectors.md 2.3, 2.5). -/

theorem test_enable :
    lineRegs (.cycle 0b00010 0) p1Done = some { p1Done with procEn := true, done := false } ∧
    lineRegs (.cycle 0b00010 0) (rg true 0x4 3 0 7525 false 0) = some (rg true 0x4 3 0 7525 false 0) := by decide
theorem test_disable :
    lineRegs (.cycle 0b00100 0) (rg true 0x4 3 0 7525 false 0) = some (rg false 0x4 3 0 7525 false 0) ∧
    lineRegs (.cycle 0b00100 0) (rg false 0x4 3 0 7525 false 0) = some (rg false 0x4 3 0 7525 false 0) := by decide
theorem test_clear :
    lineRegs (.cycle 0b01000 0) p1End = some (rg false 0 0 0x04FB08F7 104000 false 0x04FB08F7) ∧
    lineRegs (.cycle 0b01000 0) (rg true 0x9 4 0 9775 false 0) = some (rg true 0 0 0 9775 false 0) := by decide
theorem test_nop : lineRegs (.cycle 0 0) p1Done = some p1End := by decide
theorem test_reset :
    lineRegs (.cycle 0b10000 0) (rg false 0x4FB08F7F 4 0x04FB08F7 213000 true 0x4FB08F7F) = some rs ∧
    lineRegs (.cycle 0b10000 0) rs = some rs ∧
    lineRegs (.cycle 0b10001 5500) (rg true 0x1 1 0 3250 false 0) = some rs ∧
    lineRegs (.cycle 0b11110 0) (rg false 0 0 0 5500 false 0) = some rs := by decide

/-! Bundles (95_test_vectors.md 2.6). -/

theorem test_bundles :
    [lineRegs (.cycle 0b00101 3250) (rg true 0 0 0 1000 false 0),
     lineRegs (.cycle 0b00011 5500) (rg false 0x1 1 0 3250 false 0),
     lineRegs (.cycle 0b01001 5500) (rg true 0x1 1 0 3250 false 0),
     lineRegs (.cycle 0b00110 0) (rg true 0 0 0 5500 false 0)] =
    [some (rg false 0x1 1 0 3250 false 0), some (rg true 0x1 1 0 3250 false 0),
     some (rg true 0 0 0 5500 false 0), some (rg false 0 0 0 5500 false 0)] := by decide
theorem test_bundles_with_completion :
    [lineRegs (.cycle 0b01001 104000) p1Before, lineRegs (.cycle 0b00011 104000) p1Before,
     lineRegs (.cycle 0b00111 104000) p1Before, lineRegs (.cycle 0b00011 100000) rs] =
    [some (rg false 0 0 0x04FB08F7 104000 true 0x04FB08F7), some { p1Done with procEn := true },
     some p1Done, some (rg true 0 0 0 100000 true 0)] := by decide

/-! Queries (95_test_vectors.md 2.4). -/

theorem test_queries_after_packet :
    (List.range 16).map (fun q => reads q p1Done) =
    [some 0, some 0, some 0x04FB08F7, some 0x4, some 0x4FB, some 0x8, some 0x8F7, some 1] ++
    [some 1, some 0, some 0x04FB08F7, some 0x04FB08F7, some 1, some 0, some 0, some 0] := by decide
theorem test_queries_after_reset :
    (List.range 16).map (fun q => reads q rs) = [some 1, some 1] ++ List.replicate 14 (some 0) := by decide
/-- ADDRESS, EXT_ADDRESS, DATA, EXT_DATA, ADDR_VALID, DATA_VALID of a packet in `acc_packet`. -/
def fields (acc : Packet) : List (Option QData) := [3, 4, 5, 6, 7, 8].map (fun q => reads q { rs with accPacket := acc })
theorem test_query_fields :
    [0x00FF00FF, 0xFF00FF00, 0x1234ED12, 0x4FB08F7F, 0x027D847B].map fields =
    [[some 0x00, some 0x00FF, some 0x00, some 0x00FF, some 1, some 1],
     [some 0xFF, some 0xFF00, some 0xFF, some 0xFF00, some 1, some 1],
     [some 0x12, some 0x1234, some 0xED, some 0xED12, some 0, some 1],
     [some 0x4F, some 0x4FB0, some 0x8F, some 0x8F7F, some 1, some 0],
     [some 0x02, some 0x027D, some 0x84, some 0x847B, some 0, some 1]] := by decide
theorem test_query_bit_count : reads 9 p1Before = some 31 := by decide
/-- A query lowers nothing (20_memory.md R33). -/
theorem test_query_keeps_done : exec .qDone (st p1Done []) = .next (st p1Done []) := rfl
/-- A step is the cycle behind the queries: P1 line 34 (00_scope.md R11, 30_encoding.md R39). -/
theorem test_query_takes_no_cycle :
    (after (st p1Before [.query 0xC, .query 9, .cycle 1 104000, .cycle 0 0])).map (fun t => (t.regs, t.stim)) =
      some (p1Done, [.cycle 0 0]) := by decide

/-! The stimulus text (30_encoding.md R47, R48; program P1). -/

theorem test_frame_lines :
    (frameLines Config.default 50000 0x04FB08F7).take 6 =
      [.cycle 1 51125, .cycle 1 52250, .cycle 1 53375, .cycle 1 54500, .cycle 1 55625, .cycle 1 57875] ∧
    (frameLines Config.default 50000 0x04FB08F7).getLast? = some (.cycle 1 104000) := by decide
/-- P2's lines 2 and 3, and R46's rule against a repeated item. -/
theorem test_assemble :
    (assemble Config.default 0 [.items [.edge 200750, .expect .qDone 1], .items [.nop]]).toOption =
      some [⟨.cycle 1 200750, none⟩, ⟨.query 0xC, some 1⟩, ⟨.cycle 0 0, none⟩] ∧
    (assemble Config.default 0 [.items [.enable, .enable]]).toOption = none := by decide

/-! Witnesses: the hypotheses of every conditional statement are met by a concrete state, each clause at the
boundary values of its range. -/

/-- An enabled block with these packet, count and last edge, and one line to come. -/
def en (acc : Packet) (bc : BitCount) (last : Nat) (stim : List Line) : State := st (rg true acc bc 0 last false 0) stim
/-- The last time of the 64-bit clock. -/
def tMax : Nat := 2 ^ 64 - 1

/-- The first and the last vector with bit 4, and the last time. -/
theorem witness_ResetOverridesTheCycle :
    (16 ≤ 16 ∧ 16 < 32 ∧ 0 < (st p1Done []).cfg.tsMod ∧ (st p1Done [.cycle 16 0]).stim = .cycle 16 0 :: []) ∧
    (16 ≤ 31 ∧ 31 < 32 ∧ tMax < (st p1Done []).cfg.tsMod ∧
      (st p1Done [.cycle 31 tMax]).stim = .cycle 31 tMax :: []) := by decide
theorem witness_EnableSetsOnlyProcEn :
    rs.procEn = true ∧ ∃ t, exec .enable (st p1End []) = .next t := ⟨rfl, _, rfl⟩
theorem witness_DisableSetsOnlyProcEn : ∃ t, exec .disable (st p1End []) = .next t := ⟨_, rfl⟩
theorem witness_ClearEmptiesThePacket : ∃ t, exec .clear (st p1End []) = .next t := ⟨_, rfl⟩
theorem witness_NopLowersDone :
    tMax < (st p1Done []).cfg.tsMod ∧ (st p1Done [.cycle 0 tMax]).stim = .cycle 0 tMax :: [] := by decide
theorem witness_EdgeFollowsItsPseudocode :
    tMax < (st p1End []).cfg.tsMod ∧ 0 < (st rs []).cfg.tsMod ∧ 15 < 16 ∧ 15 % 2 = 1 := by decide
theorem witness_DisabledEdgeIsDiscarded :
    p1End.procEn = false ∧ 105125 < (st p1End []).cfg.tsMod ∧
    (st p1End [.cycle 1 105125]).stim = .cycle 1 105125 :: [] := by decide
theorem witness_IntervalIsModularSubtraction :
    (0 < Config.default.tsMod ∧ tMax < Config.default.tsMod ∧ 1 < Config.default.tsMod ∧
      (tMax + 1) % Config.default.tsMod = 0) ∧
    interval Config.default 0 tMax = 1 := by decide
/-- Counts 0, 30 and, where the statement's last clause does not speak, 31; both bits. -/
theorem witness_DataBitShiftsIn :
    (classify Config.default (interval Config.default 2250 0) = (if true then .one else .zero) ∧
      rs.procEn = true ∧ 2250 < Config.default.tsMod ∧ rs.bitCount ≠ 31#6) ∧
    (classify Config.default (interval Config.default 1125 0) = (if false then .one else .zero) ∧
      (en 5 30 0 []).regs.procEn = true ∧ (en 5 30 0 []).regs.bitCount ≠ 31#6) := by decide
theorem witness_ThirtySecondBitCompletes :
    (104000 < Config.default.tsMod ∧ p1Before.procEn = true ∧ p1Before.bitCount = 31#6 ∧
      classify Config.default (interval Config.default 104000 p1Before.lastEdge) = (if true then .one else .zero)) ∧
    classify Config.default (interval Config.default 102875 p1Before.lastEdge) = (if false then .one else .zero) ∧
    (st p1Before [.cycle 15 104000]).stim = .cycle 15 104000 :: [] ∧ 15 < 16 ∧ 15 % 2 = 1 ∧
    (st p1Before [.cycle 1 104000]).stim = .cycle 1 104000 :: [] ∧ 1 < 16 ∧ 1 % 2 = 1 := by decide
theorem witness_RepeatForwardsTheCurrentPacket :
    (en 5 3 6625 [.cycle 15 106625]).stim = .cycle 15 106625 :: [] ∧ 15 < 16 ∧ 15 % 2 = 1 ∧
    (en 5 3 6625 []).regs.procEn = true ∧ 106625 < (en 5 3 6625 []).cfg.tsMod ∧
    classify (en 5 3 6625 []).cfg (interval (en 5 3 6625 []).cfg 106625 (en 5 3 6625 []).regs.lastEdge) = .repeatCode := by
  decide
theorem witness_UnclassifiedMovesOnlyTheTimestamp :
    (en 2 2 53375 [.cycle 1 53400]).stim = .cycle 1 53400 :: [] ∧
    (en 2 2 53375 []).regs.procEn = true ∧ 53400 < (en 2 2 53375 []).cfg.tsMod ∧
    classify (en 2 2 53375 []).cfg (interval (en 2 2 53375 []).cfg 53400 (en 2 2 53375 []).regs.lastEdge) = .unclassified := by
  decide
theorem witness_EnabledEdgeRecordsItsTime : tMax < (st rs []).cfg.tsMod ∧ (st rs []).regs.procEn = true := by decide
/-- At the largest deviation the statement allows. -/
theorem witness_DuplicateEdgeHasNoEffect :
    ∃ s : State, s.cfg.devPct < 100 ∧ 0 < s.cfg.nomOne ∧ 0 < s.cfg.nomZero ∧ 0 < s.cfg.nomRepeat ∧
      s.regs.lastEdge < s.cfg.tsMod ∧ s.regs.procEn = true :=
  ⟨{ en 2 2 53400 [] with cfg := { Config.default with devPct := 99 } }, by decide⟩
/-- Both sides of the equivalence, at deviation 100: 4500 inside, 4501 outside. -/
theorem witness_WindowHasIntegerBounds :
    ∃ c : Config, c.devPct ≤ 100 ∧ inWin c 4500 2250 = true ∧ inWin c 4501 2250 = false :=
  ⟨{ Config.default with devPct := 100 }, by decide⟩
/-- A configuration of each clause, with the clause's boundary intervals inside and outside. -/
theorem witness_OverlapThresholds :
    (Config.default.nomOne = 2250 ∧ Config.default.nomZero = 1125 ∧ Config.default.nomRepeat = 100000) ∧
    (∀ iv ∈ [1485, 1507], inWin { Config.default with devPct := 34 } iv 2250 = true ∧
      inWin { Config.default with devPct := 34 } iv 1125 = true) ∧
    inWin { Config.default with devPct := 34 } 1484 2250 = false ∧
    inWin { Config.default with devPct := 34 } 1508 1125 = false ∧
    (∀ iv ∈ [4000, 4410], inWin { Config.default with devPct := 96 } iv 2250 = true ∧
      inWin { Config.default with devPct := 96 } iv 100000 = true) ∧
    (∀ iv ∈ [2000, 2227], inWin { Config.default with devPct := 98 } iv 1125 = true ∧
      inWin { Config.default with devPct := 98 } iv 100000 = true) ∧
    (inWin { Config.default with devPct := 33 } 1508 2250 = true ∧
      inWin { Config.default with devPct := 95 } 4387 2250 = true ∧
      inWin { Config.default with devPct := 97 } 2216 1125 = true) := by decide
theorem witness_ZeroIntervalClass :
    (0 < Config.default.nomOne ∧ 0 < Config.default.nomZero ∧ 0 < Config.default.nomRepeat) ∧
    cls 99 0 = .unclassified ∧ cls 100 0 = .one := by decide
/-- The top of the REPEAT window at the smallest legal `TS_W` (00_scope.md R7). -/
theorem witness_SupportedWidthHoldsEveryWindow :
    ∃ c : Config, c.supported = true ∧ c.tsW = 17 ∧ 100000 ≤ c.nomRepeat ∧ inWin c 110000 100000 = true :=
  ⟨{ Config.default with tsW := 17 }, by decide⟩
theorem witness_ReservedCodesReadZero :
    (0xD ≤ (0xD#4).toNat ∧ 0xD ≤ (0xF#4).toNat ∧ 0xD ≤ 13 ∧ 13 < 16) ∧ (0xD ≤ 15 ∧ 15 < 16 ∧
    (st p1Done [.query 13]).stim = .query 13 :: [] ∧ (st p1Done [.query 15]).stim = .query 15 :: []) := by decide
theorem witness_QueriesHaveNoSideEffect :
    (st p1Done [.query 0]).stim = .query 0 :: [] ∧ (st p1Done [.query 15]).stim = .query 15 :: [] ∧
    queryCode .qState = some 0 ∧ queryCode (.qReservedEF true) = some 15 := by decide
theorem witness_VectorsSelectTheirRows : 0 < 32 ∧ 31 < 32 ∧ tMax < Config.default.tsMod := by decide
theorem witness_QueryCodesSelectTheirRows : 0 < 16 ∧ 15 < 16 := by decide
theorem witness_DecodeOfEncodeIsTheInstruction : wellFormed Config.default (.edge tMax) = true := by decide
theorem witness_DecodeOfEncodeIsTheBundle :
    bundleWellFormed Config.default [.edge tMax, .clear, .enable, .disable] = true ∧
    bundleWellFormed Config.default [.qDone] = true := by decide
theorem witness_EveryPresentableLineDecodes :
    presentable Config.default (.cycle 31 tMax) = true ∧ presentable Config.default (.query 15) = true := by decide
theorem witness_DecodingKeepsEveryCommandBit :
    (0 < 16 ∧ decodeLine Config.default (.cycle 0 5) = .ok [.nop]) ∧
    (15 < 16 ∧ decodeLine Config.default (.cycle 15 5) = .ok [.edge 5, .clear, .enable, .disable]) :=
  ⟨⟨by decide, rfl⟩, by decide, rfl⟩
/-- A refused line and one that is not, from the same registers. -/
theorem witness_OnlyMalformedLinesAreRefused :
    step (st rs [.cycle 32 0]) = .refused (.malformedLine .cmdTooWide) ∧
    step (st rs [.query 15, .cycle 0 (tMax + 1)]) = .refused (.malformedLine .timeTooWide) ∧
    step (st rs [.query 16]) = .refused (.malformedLine .qselTooWide) ∧
    (after (st rs [.query 15, .cycle 31 tMax, .cycle 32 0])).isSome = true := ⟨rfl, rfl, rfl, by decide⟩
theorem witness_AssembledLinesArePresentable :
    ∃ ls, assemble Config.default 0 [.items [.gap 50000], .idle 1, .frame 0x04FB08F7] = .ok ls ∧ ls ≠ [] :=
  ⟨_, rfl, by decide⟩
theorem witness_StepRunsTheDecodedLine :
    (st p1Done [.cycle 1 7]).stim = .cycle 1 7 :: [] ∧ decodeLine Config.default (.cycle 1 7) = .ok [.edge 7] ∧
    (st p1Done [.query 12]).stim = .query 12 :: [] ∧ decodeLine Config.default (.query 12) = .ok [.qDone] ∧
    decodeLine Config.default (.cycle 3 7) = .ok [.edge 7, .enable] := ⟨rfl, rfl, rfl, rfl, rfl⟩
theorem witness_PresentedWordRunsNext :
    (decodeLine State.reset.cfg (tableLine 8 0b00010) = .ok [.enable] ∧ queryCode .enable = none) ∧
    (decodeLine State.reset.cfg (tableLine 4 0xC) = .ok [.qDone] ∧ queryCode .qDone ≠ none) ∧
    decodeLine State.reset.cfg (tableLine 72 (1 + 2250 * 2 ^ 8)) = .ok [.edge 2250] :=
  ⟨⟨rfl, rfl⟩, ⟨rfl, by decide⟩, rfl⟩
theorem witness_IdleCycleOnlyLowersDone : (st p1Done []).stim = [] ∧ p1Done.done = true := by decide
theorem witness_CycleAppliesTheBundleInOrder :
    nextCycle [.query 15, .cycle (0b01111#5).toNat 104000] = some ((0b01111#5).toNat, 104000) ∧
    ∀ l ∈ presented (st p1Before [.query 15, .cycle (0b01111#5).toNat 104000]).stim,
      presentable (st p1Before []).cfg l = true := by decide
/-- A cycle that completes and one that does not. -/
theorem witness_DoneTellsACompletion :
    (after (st p1Before [.cycle 15 104000])).map (·.regs.done) = some true ∧
    (after (st p1Done [.cycle 1 104000])).map (·.regs.done) = some false := by decide
theorem witness_DonePacketChangesOnlyOnCompletion :
    (after (st p1Before [.cycle 1 104000])).map (·.regs.donePacket) = some 0x04FB08F7#32 ∧
    p1Before.donePacket ≠ 0x04FB08F7#32 ∧
    (after (st p1Done [.cycle 16 0])).map (·.regs.donePacket) = some 0#32 ∧ p1Done.donePacket ≠ 0#32 := by decide
theorem witness_CompletedPacketHasTwoWriters :
    (after (st p1Before [.cycle 1 104000])).map (·.regs.completedPacket) = some 0x04FB08F7#32 ∧
    p1Before.completedPacket ≠ 0x04FB08F7#32 ∧
    (after (st p1Done [.cycle 31 0])).map (·.regs.completedPacket) = some 0#32 ∧
    p1Done.completedPacket ≠ 0#32 := by decide
theorem witness_LastEdgeHasTwoWriters :
    (after (st p1Before [.cycle 15 tMax])).map (·.regs.lastEdge) = some tMax ∧
    (after (st p1Done [.cycle 16 0])).map (·.regs.lastEdge) = some 0 ∧ p1Done.lastEdge ≠ 0 := by decide
theorem witness_OnlyEnableOrResetLeavesDisabled :
    p1Done.procEn = false ∧
    (after (st p1Done [.cycle 0b00010 0])).map (·.regs.procEn) = some true ∧
    (after (st p1Done [.cycle 0b10000 0])).map (·.regs.procEn) = some true := by decide
/-- A completion with ENABLE, one with ENABLE and DISABLE. -/
theorem witness_CompletionClosesTheGate :
    (after (st p1Before [.cycle 0b00011 104000])).map (fun t => (t.regs.done, t.regs.procEn)) = some (true, true) ∧
    (after (st p1Before [.cycle 0b00111 104000])).map (fun t => (t.regs.done, t.regs.procEn)) = some (true, false) := by
  decide
/-- The count at its bound, and a step from there. -/
theorem witness_EveryStepKeepsTheInvariant :
    (st p1Before [.cycle 1 104000]).Inv ∧ ∃ t, step (st p1Before [.cycle 1 104000]) = .next t :=
  ⟨⟨by decide, by decide, by decide⟩, _, rfl⟩
theorem witness_NoOperationRaisesAnException :
    ∃ s : State, s.stim ≠ [] ∧ ∀ l ∈ s.stim, presentable s.cfg l = true :=
  ⟨st p1Before [.cycle 31 tMax, .query 15], by decide, by decide⟩
theorem witness_StepsKeepTheParameters :
    ∃ t, step (st p1Before [.query 12, .cycle 1 104000, .cycle 0 0]) = .next t ∧ t.stim = [.cycle 0 0] :=
  ⟨_, rfl, rfl⟩
theorem witness_HeaderConstantsHaveNoEffect : ∃ t, step (st p1Before [.cycle 1 104000]) = .next t := ⟨_, rfl⟩
/-- Each vector the statement names, on a disabled block. -/
theorem witness_DisabledBlockHolds :
    ∃ lines : List Line, lines ≠ [] ∧ (st p1Done (lines ++ [])).regs.procEn = false ∧
      ∀ l ∈ lines, ∃ cmd t, l = .cycle cmd t ∧ cmd ∈ [0b00000, 0b00001, 0b00100, 0b00101] ∧
        t < (st p1Done (lines ++ [])).cfg.tsMod :=
  ⟨[.cycle 0 0, .cycle 1 105125, .cycle 4 0, .cycle 5 tMax], by decide, rfl, by
    intro l hl
    simp only [List.mem_cons, List.not_mem_nil, or_false] at hl
    rcases hl with rfl | rfl | rfl | rfl <;> exact ⟨_, _, rfl, by decide, by decide⟩⟩
/-- A vector of the statement behind a query, on a disabled block. -/
theorem witness_DisabledStepKeepsTheRegisters :
    p1Done.procEn = false ∧ nextCycle [.query 12, .cycle 5 105125] = some (5, 105125) ∧
    5 ∈ [0b00000, 0b00001, 0b00100, 0b00101] ∧ (after (st p1Done [.query 12, .cycle 5 105125])).isSome = true := by
  decide
/-- One bit more than the old 30 (31 in all, the bound). -/
theorem witness_NewBitsShiftInOverTheOld :
    ∃ (s : State) (bs : List Bool), bs ≠ [] ∧ s.regs.procEn = true ∧ s.regs.bitCount.toNat + bs.length = 31 ∧
      s.cfg.nomOne < s.cfg.tsMod ∧ s.cfg.nomZero < s.cfg.tsMod ∧ classify s.cfg s.cfg.nomZero = .zero ∧
      s.stim = bitLines s.cfg s.regs.lastEdge bs ++ [] :=
  ⟨en 0x13EC23D 30 99500 (bitLines Config.default 99500 [true]), [true], by decide⟩
theorem witness_FrameFillsThePacket :
    ∃ (s : State) (p : Packet), s.regs.procEn = true ∧ s.regs.bitCount = 0#6 ∧
      s.cfg.nomOne < s.cfg.tsMod ∧ s.cfg.nomZero < s.cfg.tsMod ∧ classify s.cfg s.cfg.nomZero = .zero ∧
      s.stim = frameLines s.cfg s.regs.lastEdge p ++ [] :=
  ⟨en 0 0 50000 (frameLines Config.default 50000 0x04FB08F7), 0x04FB08F7, by decide⟩

end Sys2Proof.Tests
end

section
/-! Queries (20_memory.md R33, 30_encoding.md R39): what one reads is `qdata` at its code, and reading changes nothing. -/

namespace Sys2Proof.Machine

/-- The code of a query fits the port `qsel[3:0]`. -/
theorem queryCode_lt {i : Instr} {q : Nat} (h : queryCode i = some q) : q < 16 := by
  cases i
  case qReservedEF low => cases low <;> cases h <;> decide
  all_goals cases h <;> decide

/-- The rule of each query and the status register map agree at the query's code (10_state.md R22). -/
theorem answer_eq_qdata {i : Instr} {q : Nat} (s : State) (h : queryCode i = some q) :
    answer i s = some (s.qdata (BitVec.ofNat 4 q)) := by
  cases i
  case qReservedEF low => cases low <;> cases h <;> rfl
  all_goals cases h <;> rfl

/-- Settles O28: a query answers its own state and reads `qdata` at its code; as its code fits the port, the
step behind it does not see it. -/
theorem queriesHaveNoSideEffect : Obligations.QueriesHaveNoSideEffect := by
  intro i q s hcode
  have hquery : queryCode i ≠ none := by simp [hcode]
  exact ⟨exec_query s hquery, answer_eq_qdata s hcode,
    fun _ hstim => step_cons_query hstim (queryCode_lt hcode)⟩

end Sys2Proof.Machine
end

section
/-! The bundle of a cycle (30_encoding.md R44) against its pseudocode: the model's registers after an EDGE and
after a cycle are those that `Sys2Proof.Pseudo` gives. -/

namespace Sys2Proof.Machine

section
variable {c : Config} {r : Regs} {t : Nat}

/-- The modular subtraction of 41_edge.md R59 comes out the same on naturals and on integers. -/
theorem pseudo_interval_eq : Pseudo.interval c r t = interval c t r.lastEdge := by
  have hlt := Nat.mod_lt r.lastEdge (tsMod_pos c)
  have hdiv := Int.mul_ediv_add_emod (r.lastEdge : Int) c.tsMod
  have hcast : (Pseudo.interval c r t : Int) = interval c t r.lastEdge := by
    rw [interval_cast, Pseudo.interval]
    push_cast [Nat.cast_sub hlt.le]
    rw [Int.emod_eq_emod_iff_emod_sub_eq_zero]
    apply Int.emod_eq_zero_of_dvd
    exact ⟨1 + r.lastEdge / c.tsMod, by linear_combination -hdiv⟩
  exact_mod_cast hcast

/-- The pseudocode and the model look at one class. -/
theorem classify_pseudo_interval (ht : t < c.tsMod) :
    classify c (Pseudo.interval c r t) = edgeClassOf c t r := by
  rw [pseudo_interval_eq, edgeClassOf, edgeOperand_of_lt c ht]

/-- Dropping bit 31 and putting a bit below is the model's shift (41_edge.md R60). -/
theorem append_bit_eq_shift (p : Packet) (b : Bool) :
    (p.extractLsb' 0 31 ++ BitVec.ofBool b : BitVec 32) = (p <<< 1) ||| zextBit b := by
  apply BitVec.eq_of_getLsbD_eq
  intro i hi
  rw [BitVec.getLsbD_append]
  cases i with
  | zero => simp [zextBit, zext]
  | succ i =>
    have hwidth : i < 31 ↔ i + 1 < 32 := by omega
    simp [zextBit, zext, hwidth]

/-- 41_edge.md R58 in the pseudocode. -/
theorem pseudo_edge_disabled (hoff : r.procEn = false) : Pseudo.edge c r t = (r, none) := by
  rw [Pseudo.edge, if_pos hoff]

/-- 41_edge.md R60, R61 in the pseudocode, in the model's operations. -/
theorem pseudo_edge_dataBit {b : Bool} (hon : r.procEn ≠ false)
    (hclass : classify c (Pseudo.interval c r t) = if b then .one else .zero) :
    Pseudo.edge c r t =
      if r.bitCount = 31#6 then
        ((r.shiftIn b).countBit.endPacket.storeCompleted.recordEdge t, some (r.shiftIn b).accPacket)
      else ((r.shiftIn b).countBit.recordEdge t, none) := by
  have hfull : r.bitCount + 1#6 = 32#6 ↔ r.bitCount = 31#6 := by
    simpa [packetFull] using packetFull_succ_iff (n := r.bitCount)
  rw [Pseudo.edge, if_neg hon, hclass]
  cases b <;> simp only [append_bit_eq_shift, hfull, if_true, Bool.false_eq_true, if_false] <;> split_ifs <;> rfl

/-- 41_edge.md R62 in the pseudocode. -/
theorem pseudo_edge_repeat (hon : r.procEn ≠ false) (hclass : classify c (Pseudo.interval c r t) = .repeatCode) :
    Pseudo.edge c r t = (r.endPacket.recordEdge t, some r.accPacket) := by
  rw [Pseudo.edge, if_neg hon, hclass]
  rfl

/-- 41_edge.md R63 in the pseudocode. -/
theorem pseudo_edge_unclassified (hon : r.procEn ≠ false)
    (hclass : classify c (Pseudo.interval c r t) = .unclassified) :
    Pseudo.edge c r t = (r.recordEdge t, none) := by
  rw [Pseudo.edge, if_neg hon, hclass]
  rfl

/-- EDGE is the pseudocode of 41_edge.md R57 with its emission written to `done` and `done_packet`. -/
theorem Regs.edge_eq_pseudo (ht : t < c.tsMod) : r.edge c t = Pseudo.emitted (Pseudo.edge c r t) := by
  have hcases := Regs.edge_cases c t r
  rw [← classify_pseudo_interval ht, edgeOperand_of_lt c ht] at hcases
  obtain ⟨hoff, h⟩ | ⟨hen, h⟩ := hcases
  · rw [h, pseudo_edge_disabled hoff]
    rfl
  · have hon : r.procEn ≠ false := by simp [hen]
    obtain ⟨b, hclass, ⟨h31, h⟩ | ⟨h31, h⟩⟩ | ⟨hclass, h⟩ | ⟨hclass, h⟩ := h
    · rw [h, pseudo_edge_dataBit hon hclass, if_neg h31]
      rfl
    · rw [h, pseudo_edge_dataBit hon hclass, if_pos h31]
      rfl
    · rw [h, pseudo_edge_repeat hon hclass]
      rfl
    · rw [h, pseudo_edge_unclassified hon hclass]
      rfl

/-- The pseudocode of EDGE neither reads nor writes `done`. -/
theorem pseudo_edge_lowerDone :
    Pseudo.edge c r.lowerDone t = ((Pseudo.edge c r t).1.lowerDone, (Pseudo.edge c r t).2) := by
  by_cases hoff : r.procEn = false
  · simp only [pseudo_edge_disabled, hoff, Regs.lowerDone_procEn]
  · have hoff' : r.lowerDone.procEn ≠ false := hoff
    have hdata (b : Bool) (hclass : classify c (Pseudo.interval c r t) = if b then .one else .zero) :
        Pseudo.edge c r.lowerDone t = ((Pseudo.edge c r t).1.lowerDone, (Pseudo.edge c r t).2) := by
      rw [pseudo_edge_dataBit hoff hclass, pseudo_edge_dataBit hoff' hclass, Regs.lowerDone_bitCount]
      split_ifs <;> rfl
    cases hclass : classify c (Pseudo.interval c r t) with
    | one => exact hdata true hclass
    | zero => exact hdata false hclass
    | repeatCode => rw [pseudo_edge_repeat hoff hclass, pseudo_edge_repeat hoff' hclass]; rfl
    | unclassified => rw [pseudo_edge_unclassified hoff hclass, pseudo_edge_unclassified hoff' hclass]; rfl

end

section
variable (c : Config) (r : Regs)

/-- An emission of the cycle's EDGE is not undone by the controls after it. -/
theorem controlsAfter_emitted (cmd : Nat) (out : Regs × Option Packet) :
    controlsAfter cmd (Pseudo.emitted out) = Pseudo.emitted (controlsAfter cmd out.1, out.2) := by
  obtain ⟨S, _ | v⟩ := out
  · rfl
  · simp only [Pseudo.emitted, controlsAfter]
    split_ifs <;> rfl

/-- CLEAR, ENABLE and DISABLE do not touch `done`. -/
theorem controlsAfter_lowerDone (cmd : Nat) :
    controlsAfter cmd r.lowerDone = (controlsAfter cmd r).lowerDone := by
  simp only [controlsAfter]
  split_ifs <;> rfl

/-- RESET's bit is the top bit of the vector (30_encoding.md R37). -/
theorem getLsbD_four_iff (cmd : CmdVec) : cmd.getLsbD 4 = true ↔ 16 ≤ cmd.toNat := by
  revert cmd
  decide

/-- Without RESET the pseudocode is: the EDGE of the vector, then its controls, then the flag from the emission. -/
theorem pseudo_cycle_eq_emitted {cmd : CmdVec} (t : Nat) (hreset : ¬ cmd.getLsbD 4 = true) :
    Pseudo.cycle c r cmd t =
      let out := if cmd.getLsbD 0 then Pseudo.edge c r t else (r, none)
      Pseudo.emitted ((controlsAfter cmd.toNat out.1).lowerDone, out.2) := by
  rw [Pseudo.cycle, if_neg hreset]
  generalize (if cmd.getLsbD 0 = true then Pseudo.edge c r t else (r, none)) = out
  obtain ⟨S, _ | v⟩ := out <;> rfl

/-- The registers after a cycle are those of the pseudocode of 30_encoding.md R44. -/
theorem cycleRegs_eq_pseudo (cmd : CmdVec) {t : Nat} (ht : t < c.tsMod) :
    cycleRegs c cmd.toNat t r = Pseudo.cycle c r cmd t := by
  by_cases hreset : cmd.getLsbD 4 = true
  · rw [cycleRegs, if_pos ((getLsbD_four_iff cmd).1 hreset), Pseudo.cycle, if_pos hreset]
    rfl
  · rw [cycleRegs, if_neg (mt (getLsbD_four_iff cmd).2 hreset), pseudo_cycle_eq_emitted c r t hreset]
    change controlsAfter _ (if cmd.getLsbD 0 = true then _ else _) = _
    by_cases hedge : cmd.getLsbD 0 = true
    · simp only [if_pos hedge, Regs.edge_eq_pseudo ht, pseudo_edge_lowerDone, controlsAfter_emitted,
        controlsAfter_lowerDone]
    · simp only [if_neg hedge, controlsAfter_lowerDone, Pseudo.emitted]

end

/-- Settles O44: the step applies `cycleRegs` of the next cycle's vector and time, which is the pseudocode. -/
theorem cycleAppliesTheBundleInOrder : Obligations.CycleAppliesTheBundleInOrder := by
  intro s cmd t hnext hfits
  have hinput : cycleInput s.stim = (cmd.toNat, t) := by simp [cycleInput, hnext]
  have ht : t < s.cfg.tsMod := by simpa [hinput] using (cycleInput_fits s.stim hfits).2
  rw [step_of_presented _ rfl hfits, hinput, cycleRegs_eq_pseudo _ _ _ ht]

end Sys2Proof.Machine
end

section
/-! What a vector and a code select (30_encoding.md R42, R43). -/

namespace Sys2Proof

/-- The commands that can share a bundle, all of them, in the order of 30_encoding.md R44. -/
def sharedCommands (t : Nat) : List Instr := [.edge t, .clear, .enable, .disable]

/-- Those of them whose bit a vector has. -/
def selectedCommands (cmd t : Nat) : List Instr :=
  (if cmd.testBit 0 then [.edge t] else []) ++ (if cmd.testBit 3 then [.clear] else []) ++
    (if cmd.testBit 1 then [.enable] else []) ++ (if cmd.testBit 2 then [.disable] else [])

/-- The decoder of a vector, on the number of the line. -/
theorem decodeCmd_ofNat {cmd : Nat} (hcmd : cmd < 32) (t : Nat) :
    decodeCmd (BitVec.ofNat 5 cmd) t =
      if cmd.testBit 4 then [.reset] else if cmd = 0 then [.nop] else selectedCommands cmd t := by
  have hbit (i : Nat) : (BitVec.ofNat 5 cmd).getLsbD i = cmd.testBit i := by
    rw [BitVec.getLsbD, BitVec.toNat_ofNat, Nat.mod_eq_of_lt hcmd]
  have hzero : BitVec.ofNat 5 cmd = 0 ↔ cmd = 0 := by
    rw [← BitVec.toNat_inj, BitVec.toNat_ofNat, Nat.mod_eq_of_lt hcmd]
    rfl
  simp only [decodeCmd_eq, hbit, hzero, selectedCommands]

theorem selectedCommands_sublist (cmd t : Nat) : (selectedCommands cmd t).Sublist (sharedCommands t) := by
  have hone (b : Bool) (i : Instr) : (if b then [i] else []).Sublist [i] := by cases b <;> simp
  exact (((hone _ _).append (hone _ _)).append (hone _ _)).append (hone _ _)

/-- What one vector selects stands in the order of 30_encoding.md R44. -/
theorem selectedCommands_order (cmd t : Nat) : ((selectedCommands cmd t).map bundleRank).Pairwise (· < ·) := by
  have hall : ((sharedCommands t).map bundleRank).Pairwise (· < ·) := by simp [sharedCommands, bundleRank]
  exact hall.sublist ((selectedCommands_sublist cmd t).map bundleRank)

theorem mem_selectedCommands {cmd t : Nat} {i : Instr} : i ∈ selectedCommands cmd t ↔
    cmd.testBit 0 = true ∧ i = .edge t ∨ cmd.testBit 3 = true ∧ i = .clear ∨
      cmd.testBit 1 = true ∧ i = .enable ∨ cmd.testBit 2 = true ∧ i = .disable := by
  simp [selectedCommands]

theorem queryCode_of_mem_selectedCommands {cmd t : Nat} {i : Instr} (hi : i ∈ selectedCommands cmd t) :
    queryCode i = none := by
  have hall : ∀ j ∈ sharedCommands t, queryCode j = none := by simp [sharedCommands, queryCode]
  exact hall i ((selectedCommands_sublist cmd t).subset hi)

/-- Settles O33: with bit 4 the list is RESET alone, with no bit NOP alone, and else the selected commands, a
sublist of the four that can share a bundle. -/
theorem vectorsSelectTheirRows : Obligations.VectorsSelectTheirRows := by
  intro c cmd t hcmd ht
  refine ⟨_, decodeLine_cycle hcmd ht, ?_⟩
  rw [decodeCmd_ofNat hcmd]
  by_cases hreset : cmd.testBit 4 = true
  · have hne : cmd ≠ 0 := by rintro rfl; simp at hreset
    simp [hreset, hne, queryCode]
  · by_cases hzero : cmd = 0
    · simp [hzero, queryCode]
    · rw [if_neg hreset, if_neg hzero]
      have hquery : ∀ i ∈ selectedCommands cmd t, queryCode i = none := fun _ => queryCode_of_mem_selectedCommands
      refine ⟨?_, fun t' => ?_, ?_, ?_, ?_, ?_, hquery, selectedCommands_order cmd t⟩
      all_goals simp [mem_selectedCommands, hreset, hzero]

/-- Settles O34: each of the sixteen codes is looked up in the query rows. -/
theorem queryCodesSelectTheirRows : Obligations.QueryCodesSelectTheirRows := by
  intro c q hq
  rw [decodeLine_query hq]
  interval_cases q <;> rfl

/-- Settles O29: an output and the query of its name are the same function of the registers. -/
theorem dedicatedOutputsEqualQueries : Obligations.DedicatedOutputsEqualQueries := by
  intro s q
  exact ⟨rfl, rfl, rfl, rfl, rfl, rfl, rfl, rfl, rfl, rfl, rfl, rfl, rfl⟩

end Sys2Proof
end

section
/-! The timing-window classifier: its windows over the rationals (40_classifier.md R50) and its order (R54). -/

namespace Sys2Proof.Machine

section
variable (dev iv nom : Nat)

/-- The lower bound of 40_classifier.md R50, scaled by 100; the factor `100 - dev` may be negative. -/
theorem rat_lower_le_iff :
    (nom : ℚ) - nom * (dev / 100) ≤ iv ↔ (nom : Int) * (100 - (dev : Int)) ≤ 100 * iv := by
  have hscale : (nom : ℚ) - nom * (dev / 100) = nom * (100 - dev) / 100 := by ring
  rw [hscale, div_le_iff₀' (by norm_num)]
  exact_mod_cast Iff.rfl

/-- The upper bound of 40_classifier.md R50, scaled by 100. -/
theorem le_rat_upper_iff :
    (iv : ℚ) ≤ nom + nom * (dev / 100) ↔ 100 * (iv : Int) ≤ nom * (100 + (dev : Int)) := by
  have hscale : (nom : ℚ) + nom * (dev / 100) = nom * (100 + dev) / 100 := by ring
  rw [hscale, le_div_iff₀' (by norm_num)]
  exact_mod_cast Iff.rfl

end

/-- Settles O16: each integer comparison of `inWin` is a rational bound multiplied by 100. -/
theorem windowIsTheClosedInterval : Obligations.WindowIsTheClosedInterval := by
  intro c iv nom
  rw [inWin_iff, rat_lower_le_iff, le_rat_upper_iff]

section
variable {c : Config} {iv : Nat}

theorem classify_of_inWin_one (h1 : inWin c iv c.nomOne = true) : classify c iv = .one := by
  rw [classify, if_pos h1]

/-- Outside the ONE window the ZERO window is tried next. -/
theorem classify_of_inWin_zero (h1 : inWin c iv c.nomOne = false) (h0 : inWin c iv c.nomZero = true) :
    classify c iv = .zero := by
  rw [classify, if_neg (Bool.eq_false_iff.1 h1), if_pos h0]

/-- Outside ONE and ZERO the REPEAT window alone decides. -/
theorem classify_of_not_inWin_data (h1 : inWin c iv c.nomOne = false) (h0 : inWin c iv c.nomZero = false) :
    classify c iv = if inWin c iv c.nomRepeat then .repeatCode else .unclassified := by
  rw [classify, if_neg (Bool.eq_false_iff.1 h1), if_neg (Bool.eq_false_iff.1 h0)]

end

/-- Settles O19: the windows are tried in the classifier's order, and in each case the class is known. -/
theorem firstMatchingWindowWins : Obligations.FirstMatchingWindowWins := by
  intro c iv
  cases h1 : inWin c iv c.nomOne with
  | true => simp [classify_of_inWin_one h1]
  | false =>
    cases h0 : inWin c iv c.nomZero with
    | true => simp [classify_of_inWin_zero h1 h0]
    | false => cases hr : inWin c iv c.nomRepeat <;> simp [classify_of_not_inWin_data h1 h0, hr]

end Sys2Proof.Machine
end

section
/-! EDGE (41_edge.md): the interval it measures, the bit it shifts in, and what it does in a cycle of its own. -/

namespace Sys2Proof.Machine

section
variable (c : Config)

/-- The interval leads from the last edge to the new one on the clock (41_edge.md R59). -/
theorem add_interval_mod (t last : Nat) : (last + interval c t last) % c.tsMod = t % c.tsMod := by
  have hcast : ((last : Int) + interval c t last) % c.tsMod = (t : Int) % c.tsMod := by
    rw [interval_cast, Int.add_emod_emod, add_sub_cancel]
  exact_mod_cast hcast

/-- A gap of any length gives its remainder (41_edge.md R59). -/
theorem interval_after_mod (last d : Nat) : interval c ((last + d) % c.tsMod) last = d % c.tsMod := by
  rw [← Nat.add_mod_mod]
  exact interval_after c last (Nat.mod_lt d (tsMod_pos c))

end

/-- Settles O9: the interval leads to `t` and is below the clock's period; any other such number is the gap, and
a gap below the period is the interval. -/
theorem intervalIsModularSubtraction : Obligations.IntervalIsModularSubtraction := by
  refine ⟨fun c t last ht _ => ⟨interval_lt_tsMod c t last, ?_, ?_⟩, interval_after_mod⟩
  · rw [add_interval_mod, Nat.mod_eq_of_lt ht]
  · rintro iv hiv rfl
    exact (interval_after c last hiv).symm

/-- The shift of 41_edge.md R60 as arithmetic: bit 31 of the old packet is lost. -/
theorem toNat_shift_or_zextBit (p : Packet) (b : Bool) :
    ((p <<< 1) ||| zextBit b).toNat = (2 * p.toNat + b.toNat) % 2 ^ 32 := by
  have hbelow : (BitVec.ofBool b).toNat < 2 ^ 1 := (BitVec.ofBool b).isLt
  rw [← append_bit_eq_shift, BitVec.toNat_append, ← Nat.shiftLeft_add_eq_or_of_lt hbelow, Nat.shiftLeft_eq,
    BitVec.extractLsb'_toNat, BitVec.toNat_ofBool, Nat.shiftRight_zero]
  have hbit := b.toNat_lt
  omega

section
variable {c : Config} {t : Nat} {r : Regs}

/-- 41_edge.md R58. -/
theorem Regs.edge_of_disabled (hoff : r.procEn = false) : r.edge c t = r := by simp [Regs.edge, hoff]

/-- 41_edge.md R57 and R64, in terms of the class. -/
theorem Regs.edge_of_enabled (hen : r.procEn = true) (ht : t < c.tsMod) :
    r.edge c t = (r.applyClass (classify c (interval c t r.lastEdge))).recordEdge t := by
  rw [Regs.edge, if_pos hen, edgeOperand_of_lt c ht]

/-- 41_edge.md R63. -/
theorem Regs.edge_of_unclassified (hen : r.procEn = true) (ht : t < c.tsMod)
    (hclass : classify c (interval c t r.lastEdge) = .unclassified) : r.edge c t = r.recordEdge t := by
  rw [Regs.edge_of_enabled hen ht, hclass, Regs.applyClass]

theorem Regs.applyClass_data (b : Bool) : r.applyClass (if b then .one else .zero) = r.dataBit b := by
  cases b <;> rfl

/-- A data bit shifts the packet, also when it is the 32nd (41_edge.md R60, R61). -/
@[simp] theorem Regs.dataBit_accPacket (b : Bool) : (r.dataBit b).accPacket = (r.accPacket <<< 1) ||| zextBit b := by
  by_cases h31 : r.bitCount = 31#6
  · rw [Regs.dataBit_of_eq h31]; rfl
  · rw [Regs.dataBit_of_ne h31]; rfl

end

/-- A cycle with an EDGE alone: the flag falls and the EDGE applies. -/
theorem step_of_lone_edge {s : State} {t : Nat} {rest : List Line} (ht : t < s.cfg.tsMod)
    (hs : s.stim = .cycle 1 t :: rest) :
    step s = .next { s with regs := s.regs.lowerDone.edge s.cfg t, stim := rest } :=
  step_of_cycle hs (by decide) ht

/-- Settles O10: the packet is shifted whatever the count; below the 32nd bit the operation is the shift, the
count and the time. -/
theorem dataBitShiftsIn : Obligations.DataBitShiftsIn := by
  intro s t b ht hen hclass
  have hedge : s.regs.edge s.cfg t = (s.regs.dataBit b).recordEdge t := by
    rw [Regs.edge_of_enabled hen ht, hclass, Regs.applyClass_data]
  refine ⟨s.regs.edge s.cfg t, exec_eq _ s, ?_, fun h31 => ?_⟩
  · rw [hedge, Regs.recordEdge_accPacket, Regs.dataBit_accPacket, toNat_shift_or_zextBit]
  · rw [hedge, Regs.dataBit_of_ne h31]
    rfl

/-- Settles O13: the class does nothing to the registers, and the time is recorded; lowering `done` before the EDGE
changes neither its class nor its time. -/
theorem unclassifiedMovesOnlyTheTimestamp : Obligations.UnclassifiedMovesOnlyTheTimestamp := by
  intro s t ht hen hclass
  refine ⟨?_, fun rest hs => ?_⟩
  · rw [exec_eq, regsAfter, Regs.edge_of_unclassified hen ht hclass]
    rfl
  · rw [step_of_lone_edge ht hs, Regs.edge_of_unclassified (r := s.regs.lowerDone) hen ht hclass]
    rfl

/-- Settles O8: EDGE discards itself on a disabled block, and the cycle around it only lowers `done`. -/
theorem disabledEdgeIsDiscarded : Obligations.DisabledEdgeIsDiscarded := by
  intro s t hoff
  refine ⟨?_, fun rest ht hs => ?_⟩
  · rw [exec_eq, regsAfter, Regs.edge_of_disabled hoff]
  · rw [step_of_lone_edge ht hs, Regs.edge_of_disabled (r := s.regs.lowerDone) hoff]
    rfl

/-- Settles O14: whatever the class did, recording the time comes last. -/
theorem enabledEdgeRecordsItsTime : Obligations.EnabledEdgeRecordsItsTime := by
  intro s t ht hen
  refine ⟨_, exec_eq _ s, ?_⟩
  rw [regsAfter, Regs.edge_of_enabled hen ht, Regs.recordEdge_lastEdge]

end Sys2Proof.Machine
end

section
/-! NOP (42_control.md R70): the operation, and the cycle in which no command bit is set. -/

namespace Sys2Proof.Machine

/-- A cycle with no command bit set only lowers the flag; its time is not read (42_control.md R70). -/
theorem cycleRegs_zero (c : Config) (t : Nat) (r : Regs) : cycleRegs c 0 t r = r.lowerDone := rfl

/-- Settles O6: the operation lowers `done`, and so does the cycle around it, whose bundle adds nothing to that. -/
theorem nopLowersDone : Obligations.NopLowersDone := by
  intro s
  refine ⟨exec_eq .nop s, fun rest t ht hs => ?_⟩
  rw [step_of_cycle hs (by decide) ht, cycleRegs_zero, Regs.lowerDone]

end Sys2Proof.Machine
end

section
/-! What `qdata` reads (43_queries.md R72 to R86), over the packet's fields as parts of its number. -/

namespace Sys2Proof.Machine

/-- `zext_32` keeps the number of a field that fits the port (00_scope.md R8). -/
theorem toNat_zext {w : Nat} (hw : w ≤ 32) (v : BitVec w) : (zext v).toNat = v.toNat :=
  BitVec.toNat_setWidth_of_le hw

/-- A one-bit value reads as 1 or 0 (00_scope.md R8). -/
theorem zextBit_eq_ite (b : Bool) : zextBit b = if b then 1#32 else 0#32 := by cases b <;> rfl

/-- The complement `~` at 8 bits subtracts its byte from 255. -/
theorem byte_eq_not_iff (a b : Byte) : a = ~~~b ↔ a.toNat + b.toNat = 255 := by
  rw [← BitVec.toNat_inj, BitVec.toNat_not]
  have hb := b.isLt
  omega

section
variable (p : Packet)

theorem toNat_byte0 : (byte0 p).toNat = p.toNat / 2 ^ 24 := by
  rw [byte0, BitVec.extractLsb_toNat, Nat.shiftRight_eq_div_pow]
  have hp := p.isLt
  omega

theorem toNat_byte1 : (byte1 p).toNat = p.toNat / 2 ^ 16 % 2 ^ 8 := by
  rw [byte1, BitVec.extractLsb_toNat, Nat.shiftRight_eq_div_pow]

theorem toNat_byte2 : (byte2 p).toNat = p.toNat / 2 ^ 8 % 2 ^ 8 := by
  rw [byte2, BitVec.extractLsb_toNat, Nat.shiftRight_eq_div_pow]

theorem toNat_byte3 : (byte3 p).toNat = p.toNat % 2 ^ 8 := by
  rw [byte3, BitVec.extractLsb_toNat, Nat.shiftRight_zero]

theorem toNat_upperHalf : (upperHalf p).toNat = p.toNat / 2 ^ 16 := by
  rw [upperHalf, BitVec.extractLsb_toNat, Nat.shiftRight_eq_div_pow]
  have hp := p.isLt
  omega

theorem toNat_lowerHalf : (lowerHalf p).toNat = p.toNat % 2 ^ 16 := by
  rw [lowerHalf, BitVec.extractLsb_toNat, Nat.shiftRight_zero]

/-- 43_queries.md R83. -/
theorem addrValid_iff : addrValid p = true ↔ p.toNat / 2 ^ 16 % 2 ^ 8 + p.toNat / 2 ^ 24 = 255 := by
  rw [addrValid, beq_iff_eq, byte_eq_not_iff, toNat_byte1, toNat_byte0]

/-- 43_queries.md R84. -/
theorem dataValid_iff : dataValid p = true ↔ p.toNat % 2 ^ 8 + p.toNat / 2 ^ 8 % 2 ^ 8 = 255 := by
  rw [dataValid, beq_iff_eq, byte_eq_not_iff, toNat_byte3, toNat_byte2]

end

/-- Settles O26: each flag is the byte comparison, which is a statement about the bytes' sum. -/
theorem validityIsTheComplementCheck : Obligations.ValidityIsTheComplementCheck := by
  intro s
  have haddr : s.qdata 0x7#4 = zextBit (addrValid s.regs.accPacket) := rfl
  have hdata : s.qdata 0x8#4 = zextBit (dataValid s.regs.accPacket) := rfl
  rw [haddr, hdata, zextBit_eq_ite, zextBit_eq_ite]
  simp only [addrValid_iff, dataValid_iff, and_self]

/-- The codes from 0xD on select no register (43_queries.md R86). -/
theorem queryValue_of_reserved {q : QCode} (hq : 0xD ≤ q.toNat) (r : Regs) : queryValue q r = 0#32 := by
  have hcodes : q = 0xD#4 ∨ q = 0xE#4 ∨ q = 0xF#4 := by bv_omega
  rcases hcodes with rfl | rfl | rfl <;> rfl

/-- Settles O27: a reserved code reads 0 whatever the registers hold, and like every query that fits the port it
changes nothing about the step behind it. -/
theorem reservedCodesReadZero : Obligations.ReservedCodesReadZero := by
  intro s
  exact ⟨fun _ hq => queryValue_of_reserved hq s.regs, fun _ _ _ hfits hstim => step_cons_query hstim hfits⟩

/-- Settles O24: the one-bit registers and the count are zero-extended, and the packets read as they are. -/
theorem queriesShowTheirRegisters : Obligations.QueriesShowTheirRegisters := by
  intro s
  exact ⟨zextBit_eq_ite _, zextBit_eq_ite _, rfl, toNat_zext (by decide) s.regs.bitCount, rfl, rfl, zextBit_eq_ite _⟩

/-- Settles O25: a field zero-extended has the field's number. -/
theorem fieldAccessorsReadAccPacket : Obligations.FieldAccessorsReadAccPacket := by
  intro s
  exact ⟨(toNat_zext (by decide) _).trans (toNat_byte0 _), (toNat_zext (by decide) _).trans (toNat_upperHalf _),
    (toNat_zext (by decide) _).trans (toNat_byte2 _), (toNat_zext (by decide) _).trans (toNat_lowerHalf _)⟩

end Sys2Proof.Machine
end

section
/-! The RESET cycle (70_reset_and_hazards.md R97). -/

namespace Sys2Proof.Machine

/-- With bit 4 of the vector set, neither its other bits nor its time nor the registers before it are read
(30_encoding.md R44). -/
theorem cycleRegs_of_reset {cmd : Nat} (hreset : 16 ≤ cmd) (c : Config) (t : Nat) (r : Regs) :
    cycleRegs c cmd t r = Regs.reset := by
  rw [cycleRegs, if_pos hreset]

/-- Settles O2: the step applies the bundle of the vector, which with bit 4 set is RESET alone. -/
theorem resetOverridesTheCycle : Obligations.ResetOverridesTheCycle := by
  intro s rest cmd t hreset hcmd ht hs
  rw [step_of_cycle hs hcmd ht, cycleRegs_of_reset hreset, Regs.reset]

end Sys2Proof.Machine
end

section
/-! Encoding and decoding agree (30_encoding.md R37, R44, R48). -/

namespace Sys2Proof

/-- The row of a query is the one its code selects (30_encoding.md R43). -/
theorem decodeQuery_of_queryCode {i : Instr} {q : Nat} (hcode : queryCode i = some q) :
    decodeQuery (BitVec.ofNat 4 q) = [i] := by
  cases i
  case qReservedEF low => cases low <;> cases hcode <;> rfl
  all_goals cases hcode <;> rfl

/-- A command alone sets its own bit, and its time is EDGE's operand or 0 (30_encoding.md R48). -/
theorem encode_command {i : Instr} (hcode : queryCode i = none) :
    encode i = .cycle (commandBits i) (bundleTime [i]) := by
  simp [encode, hcode, encodeBundle]

/-- The row of a command is the one its bit selects, at the time of its own encoding (30_encoding.md R42). -/
theorem decodeCmd_of_command {i : Instr} (hcode : queryCode i = none) :
    decodeCmd (BitVec.ofNat 5 (commandBits i)) (bundleTime [i]) = [i] := by
  rw [decodeCmd_eq]
  cases i
  case reset | edge | enable | disable | clear | nop => simp [commandBits, bundleTime]
  all_goals cases hcode

theorem commandBits_lt (i : Instr) : commandBits i < 32 := by cases i <;> simp [commandBits]

/-- A query has no operand that a port could be too narrow for. -/
theorem wellFormed_of_query {c : Config} {i : Instr} {q : Nat} (hcode : queryCode i = some q) :
    wellFormed c i = true := by
  cases i
  case edge => cases hcode
  all_goals rfl

/-- The time of a bundle is the operand of one of its commands, so it fits the port. -/
theorem bundleTime_lt {c : Config} {ops : List Instr} (hwf : ∀ i ∈ ops, wellFormed c i = true) :
    bundleTime ops < c.tsMod := by
  induction ops with
  | nil => exact Machine.tsMod_pos c
  | cons i ops ih =>
    have htail := ih fun j hj => hwf j (List.mem_cons_of_mem _ hj)
    have hhead := hwf i List.mem_cons_self
    cases i
    case edge t => simpa [wellFormed, bundleTime] using hhead
    all_goals exact htail

/-- Settles O35: a query is found again by its code, a command by its bit, and EDGE's operand fits the port. -/
theorem decodeOfEncodeIsTheInstruction : Obligations.DecodeOfEncodeIsTheInstruction := by
  intro c i hwf
  cases hcode : queryCode i with
  | some q =>
    have hencode : encode i = .query q := by simp [encode, hcode]
    rw [hencode, decodeLine_query (Machine.queryCode_lt hcode), decodeQuery_of_queryCode hcode]
  | none =>
    have htime : bundleTime [i] < c.tsMod := bundleTime_lt (by simpa using hwf)
    rw [encode_command hcode, decodeLine_cycle (commandBits_lt i) htime, decodeCmd_of_command hcode]

/-- A rising list of ranks above `k` begins with the command of rank `k + 1` or has none of it. -/
theorem split_at_rank {k : Nat} {ops : List Instr} (hrise : (k :: ops.map bundleRank).Pairwise (· < ·)) :
    ∃ here later, ops = here ++ later ∧ (here = [] ∨ ∃ i, here = [i] ∧ bundleRank i = k + 1) ∧
      ((k + 1) :: later.map bundleRank).Pairwise (· < ·) := by
  cases ops with
  | nil => exact ⟨[], [], rfl, .inl rfl, by simp⟩
  | cons i later =>
    obtain ⟨habove, hlater⟩ := List.pairwise_cons.1 hrise
    have hk : k < bundleRank i := habove _ (by simp)
    by_cases hi : bundleRank i = k + 1
    · exact ⟨[i], later, rfl, .inr ⟨i, rfl, hi⟩, hi ▸ hlater⟩
    · have hnext : k + 1 < bundleRank i := by omega
      refine ⟨[], i :: later, rfl, .inl rfl, List.pairwise_cons.2 ⟨fun n hn => ?_, hlater⟩⟩
      obtain rfl | hn := List.mem_cons.1 hn
      · exact hnext
      · exact hnext.trans ((List.pairwise_cons.1 hlater).1 n hn)

theorem bundleRank_le (i : Instr) : bundleRank i ≤ 4 := by cases i <;> simp [bundleRank]

section
variable (i : Instr)

theorem eq_edge_of_bundleRank (hrank : bundleRank i = 1) : ∃ t, i = .edge t := by
  cases i <;> simp_all [bundleRank]

theorem eq_clear_of_bundleRank (hrank : bundleRank i = 2) : i = .clear := by
  cases i <;> simp_all [bundleRank]

theorem eq_enable_of_bundleRank (hrank : bundleRank i = 3) : i = .enable := by
  cases i <;> simp_all [bundleRank]

theorem eq_disable_of_bundleRank (hrank : bundleRank i = 4) : i = .disable := by
  cases i <;> simp_all [bundleRank]

end

/-- Bit 0 of a vector, as its parity (30_encoding.md R37). -/
theorem testBit_zero_iff {cmd : Nat} : cmd.testBit 0 = true ↔ cmd % 2 = 1 := by simp [Nat.testBit_zero]

/-- Bits 3:0 of a vector can be set freely (30_encoding.md R37). -/
theorem exists_vector : ∀ b0 b1 b2 b3 : Bool, ∃ cmd < 16,
    cmd.testBit 0 = b0 ∧ cmd.testBit 1 = b1 ∧ cmd.testBit 2 = b2 ∧ cmd.testBit 3 = b3 := by
  decide

/-- A bundle whose commands stand in the order of 30_encoding.md R44 is what some vector selects. -/
theorem exists_selectedCommands {ops : List Instr} (hrise : (0 :: ops.map bundleRank).Pairwise (· < ·)) :
    ∃ cmd < 16, ∃ t, ops = selectedCommands cmd t := by
  obtain ⟨edges, ops, rfl, hedges, hrise⟩ := split_at_rank hrise
  obtain ⟨clears, ops, rfl, hclears, hrise⟩ := split_at_rank hrise
  obtain ⟨enables, ops, rfl, henables, hrise⟩ := split_at_rank hrise
  obtain ⟨disables, ops, rfl, hdisables, hrise⟩ := split_at_rank hrise
  have hnone : ops = [] := by
    refine List.eq_nil_iff_forall_not_mem.2 fun i hi => ?_
    have hlow := bundleRank_le i
    have hhigh := (List.pairwise_cons.1 hrise).1 _ (List.mem_map_of_mem hi)
    omega
  have hchosen {here : List Instr} {k : Nat} {x : Instr} (hx : ∀ i, bundleRank i = k → i = x)
      (hhere : here = [] ∨ ∃ i, here = [i] ∧ bundleRank i = k) : ∃ b : Bool, here = if b then [x] else [] := by
    obtain rfl | ⟨i, rfl, hi⟩ := hhere
    · exact ⟨false, rfl⟩
    · exact ⟨true, by rw [hx i hi]; rfl⟩
  have hedge : ∃ t, ∃ b : Bool, edges = if b then [.edge t] else [] := by
    obtain rfl | ⟨i, rfl, hi⟩ := hedges
    · exact ⟨0, false, rfl⟩
    · obtain ⟨t, rfl⟩ := eq_edge_of_bundleRank i hi
      exact ⟨t, true, rfl⟩
  obtain ⟨t, b0, rfl⟩ := hedge
  obtain ⟨b3, rfl⟩ := hchosen eq_clear_of_bundleRank hclears
  obtain ⟨b1, rfl⟩ := hchosen eq_enable_of_bundleRank henables
  obtain ⟨b2, rfl⟩ := hchosen eq_disable_of_bundleRank hdisables
  obtain ⟨cmd, hcmd, rfl, rfl, rfl, rfl⟩ := exists_vector b0 b1 b2 b3
  exact ⟨cmd, hcmd, t, by simp [selectedCommands, hnone]⟩

theorem selectedCommands_eq_nil {cmd t : Nat} (hcmd : cmd < 16) (hnil : selectedCommands cmd t = []) : cmd = 0 := by
  by_contra hzero
  have hpos : 0 < cmd := by omega
  interval_cases cmd <;> cases hnil

/-- Without RESET and NOP a vector decodes to the commands whose bit it has. -/
theorem decodeCmd_eq_selectedCommands {cmd : Nat} (hcmd : cmd < 16) (hzero : cmd ≠ 0) (t : Nat) :
    decodeCmd (BitVec.ofNat 5 cmd) t = selectedCommands cmd t := by
  have hreset : cmd.testBit 4 = false := Nat.testBit_lt_two_pow hcmd
  simp [decodeCmd_ofNat (by omega : cmd < 32), hreset, hzero]

theorem encodeOps_of_commands {ops : List Instr} (hcommands : ∀ i ∈ ops, queryCode i = none) :
    encodeOps ops = encodeBundle ops := by
  match ops with
  | [] | _ :: _ :: _ => rfl
  | [i] => rw [encodeOps, encode, hcommands i List.mem_cons_self]

/-- The bits of the commands a vector selects are the vector's (30_encoding.md R37, R48). -/
theorem bits_selectedCommands {cmd : Nat} (hcmd : cmd < 16) (t : Nat) :
    (selectedCommands cmd t).foldl (fun v i => v ||| commandBits i) 0 = cmd := by
  have htime : (selectedCommands cmd t).map commandBits = (selectedCommands cmd 0).map commandBits := by
    simp only [selectedCommands, List.map_append, apply_ite (List.map commandBits)]
    rfl
  rw [← List.foldl_map, htime]
  interval_cases cmd <;> rfl

theorem bundleTime_selectedCommands {cmd : Nat} (hcmd : cmd < 16) (t : Nat) :
    bundleTime (selectedCommands cmd t) = if cmd % 2 = 1 then t else 0 := by
  interval_cases cmd <;> rfl

/-- A vector without RESET comes back from what it decodes to, and its time where EDGE uses it
(30_encoding.md R38, R48). -/
theorem encodeOps_decodeCmd {cmd : Nat} (hcmd : cmd < 16) (t : Nat) :
    encodeOps (decodeCmd (BitVec.ofNat 5 cmd) t) = .cycle cmd (if cmd % 2 = 1 then t else 0) := by
  by_cases hzero : cmd = 0
  · rw [hzero, decodeCmd_ofNat (by decide)]
    rfl
  · rw [decodeCmd_eq_selectedCommands hcmd hzero, encodeOps_of_commands fun _ => queryCode_of_mem_selectedCommands,
      encodeBundle, bits_selectedCommands hcmd, bundleTime_selectedCommands hcmd]

/-- A vector without EDGE does not read its time (30_encoding.md R38). -/
theorem decodeCmd_usedTime {cmd : Nat} (hcmd : cmd < 32) (t : Nat) :
    decodeCmd (BitVec.ofNat 5 cmd) (if cmd % 2 = 1 then t else 0) = decodeCmd (BitVec.ofNat 5 cmd) t := by
  rw [decodeCmd_ofNat hcmd, decodeCmd_ofNat hcmd]
  by_cases hodd : cmd % 2 = 1
  · rw [if_pos hodd]
  · have hbit : cmd.testBit 0 = false := Bool.eq_false_iff.2 (mt testBit_zero_iff.1 hodd)
    simp only [selectedCommands, hbit, Bool.false_eq_true, if_false]

/-- The two ways to be one line: an instruction alone, or commands in their order. -/
theorem bundleWellFormed_iff {c : Config} {ops : List Instr} : bundleWellFormed c ops = true ↔
    (∀ i ∈ ops, wellFormed c i = true) ∧
      ((∃ i, ops = [i]) ∨ 2 ≤ ops.length ∧ (0 :: ops.map bundleRank).Pairwise (· < ·)) := by
  simp only [bundleWellFormed, Bool.and_eq_true, Bool.or_eq_true, decide_eq_true_eq, List.all_eq_true,
    List.length_eq_one_iff]

/-- Settles O36: an instruction alone is O35; several commands in order are what a vector selects, and that vector
comes back from them. -/
theorem decodeOfEncodeIsTheBundle : Obligations.DecodeOfEncodeIsTheBundle := by
  intro c ops hops
  obtain ⟨hwf, ⟨i, rfl⟩ | ⟨hlen, hrise⟩⟩ := bundleWellFormed_iff.1 hops
  · exact decodeOfEncodeIsTheInstruction c i (hwf i List.mem_cons_self)
  · obtain ⟨cmd, hcmd, t, rfl⟩ := exists_selectedCommands hrise
    have hzero : cmd ≠ 0 := by
      rintro rfl
      cases hlen
    have hdecode := decodeCmd_eq_selectedCommands hcmd hzero t
    have htime : (if cmd % 2 = 1 then t else 0) < c.tsMod := by
      split_ifs with hodd
      · have hedge := hwf (.edge t) (mem_selectedCommands.2 (.inl ⟨testBit_zero_iff.2 hodd, rfl⟩))
        simpa [wellFormed] using hedge
      · exact Machine.tsMod_pos c
    rw [← hdecode, encodeOps_decodeCmd hcmd, decodeLine_cycle (by omega) htime, decodeCmd_usedTime (by omega)]

/-- Settles O38: what is accepted is what the vector decodes to, and the vector comes back from that. -/
theorem decodingKeepsEveryCommandBit : Obligations.DecodingKeepsEveryCommandBit := by
  intro c cmd t ops hcmd hdecode
  obtain ⟨-, -, rfl⟩ := decodeLine_cycle_ok hdecode
  exact encodeOps_decodeCmd hcmd t

/-- An instruction alone that fits the ports is a line. -/
theorem bundleWellFormed_singleton {c : Config} {i : Instr} (hwf : wellFormed c i = true) :
    bundleWellFormed c [i] = true :=
  bundleWellFormed_iff.2 ⟨by simpa using hwf, .inl ⟨i, rfl⟩⟩

/-- What a vector selects is a line: all four commands that share a bundle fit the ports and stand in order. -/
theorem bundleWellFormed_selectedCommands {c : Config} {cmd t : Nat} (hcmd : cmd < 16) (hzero : cmd ≠ 0)
    (ht : t < c.tsMod) : bundleWellFormed c (selectedCommands cmd t) = true := by
  have hsub := selectedCommands_sublist cmd t
  have hwf : ∀ i ∈ sharedCommands t, wellFormed c i = true := by simp [sharedCommands, wellFormed, ht]
  have hrank : ∀ i ∈ sharedCommands t, 0 < bundleRank i := by simp [sharedCommands, bundleRank]
  refine bundleWellFormed_iff.2 ⟨fun i hi => hwf i (hsub.subset hi), ?_⟩
  rcases hops : selectedCommands cmd t with _ | ⟨i, _ | ⟨j, ops⟩⟩
  · exact absurd (selectedCommands_eq_nil hcmd hops) hzero
  · exact .inl ⟨i, rfl⟩
  · refine .inr ⟨by simp, ?_⟩
    rw [← hops, List.pairwise_cons, List.forall_mem_map]
    exact ⟨fun i hi => hrank i (hsub.subset hi), selectedCommands_order cmd t⟩

/-- What a vector decodes to is a line, at any time of the port. -/
theorem bundleWellFormed_decodeCmd {c : Config} {cmd t : Nat} (hcmd : cmd < 32) (ht : t < c.tsMod) :
    bundleWellFormed c (decodeCmd (BitVec.ofNat 5 cmd) t) = true := by
  by_cases hreset : cmd.testBit 4 = true
  · rw [decodeCmd_ofNat hcmd, if_pos hreset]
    rfl
  · by_cases hzero : cmd = 0
    · rw [decodeCmd_ofNat hcmd, if_neg hreset, if_pos hzero]
      rfl
    · have hlow : cmd < 16 := by
        by_contra hhigh
        exact hreset (by interval_cases cmd <;> rfl)
      rw [decodeCmd_eq_selectedCommands hlow hzero]
      exact bundleWellFormed_selectedCommands hlow hzero ht

/-- No line holds two EDGEs: the ranks of a bundle rise (93_implementation_defined.md U4). -/
theorem edges_le_one {c : Config} {ops : List Instr} (hwf : bundleWellFormed c ops = true) :
    (ops.filter (fun i => bundleRank i == 1)).length ≤ 1 := by
  obtain ⟨-, ⟨i, rfl⟩ | ⟨-, hrise⟩⟩ := bundleWellFormed_iff.1 hwf
  · exact List.length_filter_le _ [i]
  · have hnodup : (ops.map bundleRank).Nodup := (List.pairwise_cons.1 hrise).2.imp Nat.ne_of_lt
    rw [← List.countP_eq_length_filter]
    have hcount := List.nodup_iff_count_le_one.1 hnodup 1
    rwa [List.count, List.countP_map] at hcount

/-- Settles O37: a vector selects commands in their order, a code one query. -/
theorem everyPresentableLineDecodes : Obligations.EveryPresentableLineDecodes := by
  intro c l hl
  suffices hline : ∃ ops, decodeLine c l = .ok ops ∧ bundleWellFormed c ops = true by
    obtain ⟨ops, hdecode, hwf⟩ := hline
    exact ⟨ops, hdecode, hwf, edges_le_one hwf⟩
  cases l with
  | cycle cmd t =>
    obtain ⟨hcmd, ht⟩ : cmd < 32 ∧ t < c.tsMod := by simpa [Machine.presentable] using hl
    exact ⟨_, decodeLine_cycle hcmd ht, bundleWellFormed_decodeCmd hcmd ht⟩
  | query q =>
    have hq : q < 16 := by simpa [Machine.presentable] using hl
    obtain ⟨i, hi, hcode⟩ := Machine.decodeQuery_eq hq
    refine ⟨_, decodeLine_query hq, ?_⟩
    rw [hi]
    exact bundleWellFormed_singleton (wellFormed_of_query hcode)

end Sys2Proof
end

section
/-! The assembler (30_encoding.md R46 to R48) writes lines that a host can present. -/

namespace Sys2Proof.Machine

section
variable {c : Config}

/-- A bundle whose commands fit the ports does so itself. -/
theorem presentable_encodeBundle {ops : List Instr} (hwf : ∀ i ∈ ops, wellFormed c i = true) :
    presentable c (encodeBundle ops) = true := by
  have hbits (v : Nat) (hv : v < 2 ^ 5) : ops.foldl (fun v i => v ||| commandBits i) v < 2 ^ 5 := by
    clear hwf
    induction ops generalizing v with
    | nil => exact hv
    | cons i ops ih => exact ih _ (Nat.or_lt_two_pow hv (commandBits_lt i))
  simpa [presentable, encodeBundle] using ⟨hbits 0 (by decide), bundleTime_lt hwf⟩

/-- An instruction that fits the ports does so encoded. -/
theorem presentable_encode {i : Instr} (hwf : wellFormed c i = true) : presentable c (encode i) = true := by
  cases hcode : queryCode i with
  | some q => simpa [encode, hcode, presentable] using queryCode_lt hcode
  | none =>
    rw [encode, hcode]
    exact presentable_encodeBundle (by simpa using hwf)

/-- What `EXPECT` names is a query, which has no operand. -/
theorem wellFormed_of_isNamedQuery {i : Instr} (hnamed : isNamedQuery i = true) : wellFormed c i = true := by
  cases hcode : queryCode i with
  | some q => exact wellFormed_of_query hcode
  | none => simp [isNamedQuery, hcode] at hnamed

/-- A line of items that is assembled passed the checks of 30_encoding.md R46. -/
theorem presentable_of_assembleItems {T T' : Nat} {items : List Item} {ls : List ScriptLine}
    (h : assembleItems c T items = .ok (ls, T')) : ∀ l ∈ ls, presentable c l.line = true := by
  simp only [assembleItems] at h
  split_ifs at h with hempty hnodup hwf hnamed hnone
  all_goals
    simp only [List.all_eq_true] at hwf hnamed
    obtain ⟨rfl, -⟩ := Prod.mk.inj (Except.ok.inj h)
    rw [List.forall_mem_append, List.forall_mem_map]
    refine ⟨?_, fun e he => presentable_encode (wellFormed_of_isNamedQuery (hnamed e he))⟩
  · simp
  · simpa using presentable_encodeBundle hwf

/-- The times of a row of bits are taken modulo the clock's period (30_encoding.md R47). -/
theorem bitTimes_lt {T : Nat} {bs : List Bool} : ∀ t ∈ bitTimes c T bs, t < c.tsMod := by
  induction bs generalizing T with
  | nil => simp [bitTimes]
  | cons b bs ih =>
    simp only [bitTimes, List.forall_mem_cons]
    exact ⟨Nat.mod_lt _ (tsMod_pos c), ih⟩

theorem presentable_of_frameLines {T : Nat} {p : Packet} : ∀ l ∈ frameLines c T p, presentable c l = true := by
  simp only [frameLines, bitLines, List.forall_mem_map]
  exact fun t ht => presentable_encode (by simpa [wellFormed] using bitTimes_lt t ht)

/-- What answers in sequence answers part by part. -/
theorem except_bind_ok {ε α β : Type} {x : Except ε α} {f : α → Except ε β} {b : β} (h : x >>= f = .ok b) :
    ∃ a, x = .ok a ∧ f a = .ok b := by
  cases x with
  | error e => cases h
  | ok a => exact ⟨a, rfl, h⟩

end

/-- Settles O40: a source line that assembles gives lines that fit the ports, whatever its form. -/
theorem assembledLinesArePresentable : Obligations.AssembledLinesArePresentable := by
  intro c T src
  induction src generalizing T with
  | nil =>
    rintro ls ⟨⟩ l ⟨⟩
  | cons line rest ih =>
    intro ls h
    cases line with
    | items items =>
      obtain ⟨first, hfirst, h⟩ := except_bind_ok h
      obtain ⟨later, hlater, h⟩ := except_bind_ok h
      cases h
      exact List.forall_mem_append.2 ⟨presentable_of_assembleItems hfirst, ih _ _ hlater⟩
    | frame p =>
      obtain ⟨later, hlater, h⟩ := except_bind_ok h
      cases h
      exact List.forall_mem_append.2 ⟨List.forall_mem_map.2 presentable_of_frameLines, ih _ _ hlater⟩
    | idle n =>
      obtain ⟨later, hlater, h⟩ := except_bind_ok h
      cases h
      refine List.forall_mem_append.2 ⟨fun l hl => ?_, ih _ _ hlater⟩
      rw [List.eq_of_mem_replicate hl]
      exact presentable_encode (i := .nop) rfl

end Sys2Proof.Machine
end

section
/-! What one cycle does to the registers, by its vector (30_encoding.md R44), and what a step can change. -/

namespace Sys2Proof.Machine

section
variable {c : Config} {cmd t : Nat} {r : Regs}

/-- The class of an EDGE whose time is one of the port (30_encoding.md R38). -/
theorem edgeClassOf_of_lt (ht : t < c.tsMod) : edgeClassOf c t r = classify c (interval c t r.lastEdge) := by
  rw [edgeClassOf, edgeOperand_of_lt c ht]

/-- The class of an EDGE does not depend on `done`. -/
@[simp] theorem edgeClassOf_lowerDone : edgeClassOf c t r.lowerDone = edgeClassOf c t r := rfl

/-- The class of a data bit is not that of a repeat code. -/
theorem dataClass_ne_repeatCode (b : Bool) : (if b then EdgeClass.one else .zero) ≠ .repeatCode := by
  cases b <;> decide

theorem dataClass_mem (b : Bool) : (if b then EdgeClass.one else .zero) ∈ [EdgeClass.one, .zero] := by
  cases b <;> decide

theorem cycleRegs_of_no_edge (hcmd : cmd < 16) (heven : cmd % 2 ≠ 1) :
    cycleRegs c cmd t r = controlsAfter cmd r.lowerDone := by
  rw [cycleRegs, if_neg (Nat.not_le.2 hcmd), if_neg (mt testBit_zero_iff.1 heven)]

theorem cycleRegs_of_edge (hcmd : cmd < 16) (hodd : cmd % 2 = 1) :
    cycleRegs c cmd t r = controlsAfter cmd (r.lowerDone.edge c t) := by
  rw [cycleRegs, if_neg (Nat.not_le.2 hcmd), if_pos (testBit_zero_iff.2 hodd)]

/-- Every cycle is RESET, or has no EDGE, or has one; without RESET the controls come last (30_encoding.md R44). -/
theorem cycleRegs_cases (c : Config) (cmd t : Nat) (r : Regs) :
    (16 ≤ cmd ∧ cycleRegs c cmd t r = Regs.reset) ∨
    (cmd < 16 ∧ cmd % 2 ≠ 1 ∧ cycleRegs c cmd t r = controlsAfter cmd r.lowerDone) ∨
    (cmd < 16 ∧ cmd % 2 = 1 ∧ cycleRegs c cmd t r = controlsAfter cmd (r.lowerDone.edge c t)) := by
  by_cases hreset : 16 ≤ cmd
  · exact .inl ⟨hreset, cycleRegs_of_reset hreset c t r⟩
  · have hcmd := Nat.lt_of_not_le hreset
    by_cases hodd : cmd % 2 = 1
    · exact .inr (.inr ⟨hcmd, hodd, cycleRegs_of_edge hcmd hodd⟩)
    · exact .inr (.inl ⟨hcmd, hodd, cycleRegs_of_no_edge hcmd hodd⟩)

/-- The EDGE of a cycle, which comes after `done` fell, leaves it up exactly when it completes a packet
(41_edge.md R61, R62). -/
theorem edge_lowerDone_done_iff : (r.lowerDone.edge c t).done = true ↔
    r.procEn = true ∧ (edgeClassOf c t r = .repeatCode ∨
      (edgeClassOf c t r ∈ [EdgeClass.one, .zero] ∧ r.bitCount = 31#6)) := by
  obtain ⟨hoff, h⟩ | ⟨hen, ⟨b, hclass, ⟨h31, h⟩ | ⟨h31, h⟩⟩ | ⟨hclass, h⟩ | ⟨hclass, h⟩⟩ :=
    Regs.edge_cases c t r.lowerDone
  all_goals
    simp only [Regs.lowerDone_procEn, Regs.lowerDone_bitCount, edgeClassOf_lowerDone] at *
    rw [h]
  · simp [hoff]
  · simp [hclass, h31, dataClass_ne_repeatCode]
  · simp [hen, hclass, h31, dataClass_mem b]
  · simp [hen, hclass]
  · simp [hclass]

/-- An EDGE that completes ends the packet and closes the gate (10_state.md R25). -/
theorem edge_lowerDone_of_done (hdone : (r.lowerDone.edge c t).done = true) :
    (r.lowerDone.edge c t).bitCount = 0#6 ∧ (r.lowerDone.edge c t).procEn = false := by
  obtain ⟨hoff, h⟩ | ⟨hen, ⟨b, hclass, ⟨h31, h⟩ | ⟨h31, h⟩⟩ | ⟨hclass, h⟩ | ⟨hclass, h⟩⟩ :=
    Regs.edge_cases c t r.lowerDone
  all_goals
    rw [h] at hdone ⊢
  case inr.inl.inr | inr.inr.inl => exact ⟨rfl, rfl⟩
  all_goals simp at hdone

/-- Of the controls ENABLE alone opens a closed gate, and DISABLE comes after it (30_encoding.md R44). -/
theorem controlsAfter_procEn_of_disabled (hoff : r.procEn = false) :
    (controlsAfter cmd r).procEn = true ↔ cmd.testBit 1 = true ∧ cmd.testBit 2 = false := by
  rw [controlsAfter_procEn, hoff]
  cases cmd.testBit 2 <;> simp

/-- Once a cycle has left `done` up, its count is 0, and only its own ENABLE without DISABLE can have opened the
gate again. -/
theorem cycleRegs_of_done (hdone : (cycleRegs c cmd t r).done = true) :
    (cycleRegs c cmd t r).bitCount = 0#6 ∧
      ((cycleRegs c cmd t r).procEn = true ↔ cmd.testBit 1 = true ∧ cmd.testBit 2 = false) := by
  obtain ⟨-, h⟩ | ⟨-, -, h⟩ | ⟨-, -, h⟩ := cycleRegs_cases c cmd t r
  · simp [h] at hdone
  · simp [h] at hdone
  · rw [h, controlsAfter_done] at hdone
    obtain ⟨hcount, hoff⟩ := edge_lowerDone_of_done hdone
    rw [h, controlsAfter_bitCount, hcount, ite_self]
    exact ⟨rfl, controlsAfter_procEn_of_disabled hoff⟩

end

section
variable {s s' : State}

/-- A step applies the next cycle to the registers. -/
theorem step_regs_of_nextCycle {cmd t : Nat} (hnext : nextCycle s.stim = some (cmd, t)) (h : step s = .next s') :
    t < s.cfg.tsMod ∧ s'.regs = cycleRegs s.cfg cmd t s.regs := by
  obtain ⟨hfits, rfl⟩ := step_cases h
  have hinput : cycleInput s.stim = (cmd, t) := by simp [cycleInput, hnext]
  have ht := (cycleInput_fits s.stim hfits).2
  rw [hinput] at ht ⊢
  exact ⟨ht, rfl⟩

/-- With no cycle presented a step only lowers `done`, whatever queries there are (log entry 2). -/
theorem step_regs_of_no_cycle (hnext : nextCycle s.stim = none) (h : step s = .next s') :
    s'.regs = s.regs.lowerDone := by
  obtain ⟨-, rfl⟩ := step_cases h
  have hinput : cycleInput s.stim = (0, 0) := by simp [cycleInput, hnext]
  rw [hinput]
  exact cycleRegs_zero s.cfg 0 s.regs

/-- What a step's registers can be, as one case split for the statements below. -/
theorem step_regs_cases (h : step s = .next s') :
    s'.regs = s.regs.lowerDone ∨ ∃ cmd t, nextCycle s.stim = some (cmd, t) ∧ t < s.cfg.tsMod ∧
      s'.regs = cycleRegs s.cfg cmd t s.regs := by
  cases hnext : nextCycle s.stim with
  | none => exact .inl (step_regs_of_no_cycle hnext h)
  | some input => exact .inr ⟨input.1, input.2, rfl, step_regs_of_nextCycle hnext h⟩

/-- A part of the registers that neither the fall of `done` nor the controls touch is written by RESET and EDGE
alone. -/
theorem step_writers {α : Type} (part : Regs → α) (hflag : ∀ r, part r.lowerDone = part r)
    (hcontrols : ∀ cmd r, part (controlsAfter cmd r) = part r) (h : step s = .next s')
    (hchanged : part s'.regs ≠ part s.regs) :
    ∃ cmd t, nextCycle s.stim = some (cmd, t) ∧
      ((16 ≤ cmd ∧ s'.regs = Regs.reset) ∨
       (cmd < 16 ∧ cmd % 2 = 1 ∧ t < s.cfg.tsMod ∧
        s'.regs = controlsAfter cmd (s.regs.lowerDone.edge s.cfg t))) := by
  obtain hregs | ⟨cmd, t, hnext, ht, hregs⟩ := step_regs_cases h
  · exact absurd (by rw [hregs, hflag]) hchanged
  · refine ⟨cmd, t, hnext, ?_⟩
    obtain ⟨hreset, hcycle⟩ | ⟨-, -, hcycle⟩ | ⟨hcmd, hodd, hcycle⟩ := cycleRegs_cases s.cfg cmd t s.regs
    · exact .inl ⟨hreset, hregs.trans hcycle⟩
    · exact absurd (by rw [hregs, hcycle, hcontrols, hflag]) hchanged
    · exact .inr ⟨hcmd, hodd, ht, hregs.trans hcycle⟩

end

/-- Settles O45: RESET and the controls leave `done` low, so it is up exactly when the cycle's EDGE raised it. -/
theorem doneTellsACompletion : Obligations.DoneTellsACompletion := by
  intro s rest cmd t hcmd ht hs
  refine ⟨_, step_of_cycle hs hcmd ht, ?_⟩
  rw [← edgeClassOf_of_lt ht]
  obtain ⟨hreset, h⟩ | ⟨hlow, heven, h⟩ | ⟨hlow, hodd, h⟩ := cycleRegs_cases s.cfg cmd t s.regs
  · simp [h, Nat.not_lt.2 hreset]
  · simp [h, heven]
  · simp only [h, controlsAfter_done, edge_lowerDone_done_iff, hlow, hodd, true_and]

/-- Settles O50: the step's registers are those of its cycle, where `done` closes the gate. -/
theorem completionClosesTheGate : Obligations.CompletionClosesTheGate := by
  intro s s' cmd t hnext h hdone
  rw [(step_regs_of_nextCycle hnext h).2] at hdone ⊢
  exact cycleRegs_of_done hdone

section
variable {c : Config} {t : Nat} {r : Regs}

/-- The EDGE of a cycle is the pseudocode on the registers the cycle found, with its emission after `done` fell. -/
theorem edge_lowerDone_eq_emitted (ht : t < c.tsMod) : r.lowerDone.edge c t =
    Pseudo.emitted ((Pseudo.edge c r t).1.lowerDone, (Pseudo.edge c r t).2) := by
  rw [Regs.edge_eq_pseudo ht, pseudo_edge_lowerDone]

/-- The pseudocode of EDGE leaves `done_packet` to the end of the bundle (30_encoding.md R44). -/
theorem pseudo_edge_donePacket : (Pseudo.edge c r t).1.donePacket = r.donePacket := by
  by_cases hoff : r.procEn = false
  · rw [pseudo_edge_disabled hoff]
  · have hdata (b : Bool) (hclass : classify c (Pseudo.interval c r t) = if b then .one else .zero) :
        (Pseudo.edge c r t).1.donePacket = r.donePacket := by
      rw [pseudo_edge_dataBit hoff hclass]
      split_ifs <;> rfl
    cases hclass : classify c (Pseudo.interval c r t) with
    | one => exact hdata true hclass
    | zero => exact hdata false hclass
    | repeatCode => rw [pseudo_edge_repeat hoff hclass]; rfl
    | unclassified => rw [pseudo_edge_unclassified hoff hclass]; rfl

end

/-- Settles O46: `done_packet` is written by RESET and by the emission of the EDGE's pseudocode. -/
theorem donePacketChangesOnlyOnCompletion : Obligations.DonePacketChangesOnlyOnCompletion := by
  intro s s' h hchanged
  obtain ⟨cmd, t, hnext, ⟨hreset, hregs⟩ | ⟨hcmd, hodd, ht, hregs⟩⟩ :=
    step_writers Regs.donePacket (fun _ => rfl) controlsAfter_donePacket h hchanged
  · exact ⟨cmd, t, hnext, .inl ⟨hreset, by rw [hregs, Regs.reset_donePacket]⟩⟩
  · refine ⟨cmd, t, hnext, .inr ⟨hcmd, hodd, ?_⟩⟩
    rw [edge_lowerDone_eq_emitted ht] at hregs
    cases hemit : (Pseudo.edge s.cfg s.regs t).2 with
    | none =>
      rw [hregs, controlsAfter_donePacket, hemit] at hchanged
      exact absurd pseudo_edge_donePacket hchanged
    | some v =>
      rw [hregs, controlsAfter_done, controlsAfter_donePacket, hemit]
      exact ⟨rfl, rfl⟩

/-- Settles O47: of what an EDGE can do, only the 32nd bit stores the packet. -/
theorem completedPacketHasTwoWriters : Obligations.CompletedPacketHasTwoWriters := by
  intro s s' h hchanged
  obtain ⟨cmd, t, hnext, ⟨hreset, hregs⟩ | ⟨hcmd, hodd, ht, hregs⟩⟩ :=
    step_writers Regs.completedPacket (fun _ => rfl) controlsAfter_completedPacket h hchanged
  · exact ⟨cmd, t, hnext, .inl ⟨hreset, by rw [hregs, Regs.reset_completedPacket]⟩⟩
  · refine ⟨cmd, t, hnext, .inr ⟨hcmd, hodd, ?_⟩⟩
    rw [hregs, controlsAfter_completedPacket] at hchanged ⊢
    rw [← edgeClassOf_of_lt ht]
    obtain ⟨hoff, h⟩ | ⟨hen, ⟨b, hclass, ⟨h31, h⟩ | ⟨h31, h⟩⟩ | ⟨hclass, h⟩ | ⟨hclass, h⟩⟩ :=
      Regs.edge_cases s.cfg t s.regs.lowerDone
    all_goals
      rw [h] at hchanged ⊢
    case inr.inl.inr => exact ⟨hen, h31, b, hclass, by rw [← zextBit_eq_ite]; rfl⟩
    all_goals exact absurd rfl hchanged

/-- Settles O48: an EDGE on an enabled block records its time, and on a disabled one does nothing. -/
theorem lastEdgeHasTwoWriters : Obligations.LastEdgeHasTwoWriters := by
  intro s s' h hchanged
  obtain ⟨cmd, t, hnext, ⟨hreset, hregs⟩ | ⟨hcmd, hodd, ht, hregs⟩⟩ :=
    step_writers Regs.lastEdge (fun _ => rfl) controlsAfter_lastEdge h hchanged
  · exact ⟨cmd, t, hnext, .inl ⟨hreset, by rw [hregs, Regs.reset_lastEdge]⟩⟩
  · refine ⟨cmd, t, hnext, .inr ⟨hcmd, hodd, ?_⟩⟩
    rw [hregs, controlsAfter_lastEdge] at hchanged ⊢
    cases hen : s.regs.procEn with
    | false => exact absurd (by rw [Regs.edge_of_disabled (r := s.regs.lowerDone) hen]; rfl) hchanged
    | true =>
      refine ⟨rfl, ?_⟩
      rw [Regs.edge_of_enabled (r := s.regs.lowerDone) hen ht, Regs.recordEdge_lastEdge]

/-- Settles O49: an EDGE never opens the gate, and of the controls only ENABLE does, where no DISABLE follows. -/
theorem onlyEnableOrResetLeavesDisabled : Obligations.OnlyEnableOrResetLeavesDisabled := by
  intro s s' h hoff hen
  have hoff' : s.regs.lowerDone.procEn = false := hoff
  obtain hregs | ⟨cmd, t, hnext, -, hregs⟩ := step_regs_cases h
  · simp [hregs, hoff] at hen
  · refine ⟨cmd, t, hnext, ?_⟩
    rw [hregs] at hen
    obtain ⟨hreset, hcycle⟩ | ⟨-, -, hcycle⟩ | ⟨-, -, hcycle⟩ := cycleRegs_cases s.cfg cmd t s.regs
    · exact .inl hreset
    all_goals
      rw [hcycle] at hen
    · exact .inr ((controlsAfter_procEn_of_disabled hoff').1 hen)
    · rw [Regs.edge_of_disabled hoff'] at hen
      exact .inr ((controlsAfter_procEn_of_disabled hoff').1 hen)

end Sys2Proof.Machine
end

section
/-! What every step keeps: the invariant (10_state.md R24, R25), the registers of a disabled block (60_exceptions.md
R91), the parameters (00_scope.md R6); and when it answers at all. -/

namespace Sys2Proof.Machine

section
variable {c : Config} {cmd t : Nat} {r : Regs}

theorem Regs.Inv.reset (c : Config) : Regs.reset.Inv c where
  countBelow32 := by decide
  doneCountZero _ := rfl
  lastEdgeFits := tsMod_pos c

theorem Regs.Inv.lowerDone (hinv : r.Inv c) : r.lowerDone.Inv c :=
  { hinv with doneCountZero := fun hdone => by cases hdone }

/-- CLEAR alone of the controls writes the count, and it writes 0. -/
theorem Regs.Inv.controlsAfter (hinv : r.Inv c) (cmd : Nat) : (controlsAfter cmd r).Inv c where
  countBelow32 := by
    rw [controlsAfter_bitCount]
    split_ifs
    · decide
    · exact hinv.countBelow32
  doneCountZero hdone := by
    rw [controlsAfter_done] at hdone
    rw [controlsAfter_bitCount, hinv.doneCountZero hdone, ite_self]
  lastEdgeFits := by
    rw [controlsAfter_lastEdge]
    exact hinv.lastEdgeFits

/-- A count below 31 stays below 32 with the next bit. -/
theorem bitCount_succ_le {n : BitCount} (hn : n.toNat ≤ 31) (h31 : n ≠ 31#6) : (n + 1#6).toNat ≤ 31 := by bv_omega

/-- An EDGE keeps the invariant where `done` has fallen before it. -/
theorem Regs.Inv.edge_lowerDone (hinv : r.Inv c) (t : Nat) : (r.lowerDone.edge c t).Inv c := by
  have hfits := edgeOperand_lt c t
  obtain ⟨-, h⟩ | ⟨-, ⟨b, -, ⟨h31, h⟩ | ⟨-, h⟩⟩ | ⟨-, h⟩ | ⟨-, h⟩⟩ := Regs.edge_cases c t r.lowerDone
  all_goals rw [h]
  · exact hinv.lowerDone
  · exact ⟨bitCount_succ_le hinv.countBelow32 h31, fun hdone => absurd hdone Bool.false_ne_true, hfits⟩
  · exact ⟨Nat.zero_le 31, fun _ => rfl, hfits⟩
  · exact ⟨Nat.zero_le 31, fun _ => rfl, hfits⟩
  · exact ⟨hinv.countBelow32, fun hdone => absurd hdone Bool.false_ne_true, hfits⟩

theorem Regs.Inv.cycleRegs (hinv : r.Inv c) (cmd t : Nat) : (cycleRegs c cmd t r).Inv c := by
  obtain ⟨-, h⟩ | ⟨-, -, h⟩ | ⟨-, -, h⟩ := cycleRegs_cases c cmd t r
  all_goals rw [h]
  · exact .reset c
  · exact hinv.lowerDone.controlsAfter cmd
  · exact (hinv.edge_lowerDone t).controlsAfter cmd

/-- EDGE and DISABLE find nothing to do on a disabled block (41_edge.md R58, 42_control.md R68). -/
theorem cycleRegs_of_disabled (hoff : r.procEn = false) (hcmd : cmd ∈ [0b00000, 0b00001, 0b00100, 0b00101]) :
    cycleRegs c cmd t r = r.lowerDone := by
  have hcontrols : controlsAfter cmd r.lowerDone = r.lowerDone := by
    obtain ⟨en, acc, bc, comp, last, done, dpk⟩ := r
    subst hoff
    fin_cases hcmd <;> rfl
  have hlow : cmd < 16 := by fin_cases hcmd <;> decide
  obtain ⟨hreset, -⟩ | ⟨-, -, h⟩ | ⟨-, -, h⟩ := cycleRegs_cases c cmd t r
  · omega
  · rw [h, hcontrols]
  · rw [h, Regs.edge_of_disabled (r := r.lowerDone) hoff, hcontrols]

/-- A cycle uses the deviation, the three nominals and the clock's width alone (40_classifier.md R54,
41_edge.md R59). -/
theorem cycleRegs_congr {c' : Config} (hw : c'.tsW = c.tsW) (hd : c'.devPct = c.devPct) (h1 : c'.nomOne = c.nomOne)
    (h0 : c'.nomZero = c.nomZero) (hr : c'.nomRepeat = c.nomRepeat) :
    cycleRegs c' cmd t r = cycleRegs c cmd t r := by
  have hmod : c'.tsMod = c.tsMod := by rw [Config.tsMod, hw, Config.tsMod]
  have hedge (r : Regs) : r.edge c' t = r.edge c t := by
    simp only [Regs.edge, edgeOperand, interval, hmod, classify_congr (c := c) _ hd h1 h0 hr]
  simp only [Machine.cycleRegs, hedge]

end

/-- Settles O51: the invariant holds after RESET, and neither the fall of `done`, an EDGE after it nor the controls
break it. -/
theorem everyStepKeepsTheInvariant : Obligations.EveryStepKeepsTheInvariant := by
  intro s s' hinv h
  obtain ⟨-, rfl⟩ := step_cases h
  exact Regs.Inv.cycleRegs hinv _ _

/-- Settles O52: the reset values are the same for every choice of the parameters. -/
theorem resetMeetsTheInvariant : Obligations.ResetMeetsTheInvariant :=
  ⟨.reset Config.default, .reset⟩

/-- Settles O59: the step's registers are those of its cycle, which on a disabled block only lowers `done`. -/
theorem disabledStepKeepsTheRegisters : Obligations.DisabledStepKeepsTheRegisters := by
  intro s s' cmd t hoff hnext hcmd h
  rw [(step_regs_of_nextCycle hnext h).2, cycleRegs_of_disabled hoff hcmd, Regs.lowerDone]

/-- Settles O54: a step writes the registers and the list alone. -/
theorem stepsKeepTheParameters : Obligations.StepsKeepTheParameters := by
  intro s s' h
  obtain ⟨-, rfl⟩ := step_cases h
  exact ⟨rfl, rfl⟩

/-- Settles O55: the two constants decide neither which lines fit the ports nor what a cycle does. -/
theorem headerConstantsHaveNoEffect : Obligations.HeaderConstantsHaveNoEffect := by
  intro s s' a b h
  obtain ⟨hfits, rfl⟩ := step_cases h
  have hsame := cycleRegs_congr (c := s.cfg) (c' := { s.cfg with nomAgc := a, nomSpace := b })
    (cmd := (cycleInput s.stim).1) (t := (cycleInput s.stim).2) (r := s.regs) rfl rfl rfl rfl rfl
  dsimp only
  rw [← hsame]
  exact step_of_presented s.stim rfl hfits

/-- Settles O39: a step on lines that all fit the ports answers, and any other is refused by name. -/
theorem onlyMalformedLinesAreRefused : Obligations.OnlyMalformedLinesAreRefused := by
  intro s
  refine ⟨fun ⟨e, he⟩ => ?_, step_malformed s.stim rfl⟩
  by_contra hnone
  have hfits : ∀ l ∈ presented s.stim, presentable s.cfg l = true := by simpa using hnone
  rw [step_of_presented s.stim rfl hfits] at he
  cases he

section
variable {l : Line}

theorem mem_of_mem_presented : ∀ {ls : List Line}, l ∈ presented ls → l ∈ ls
  | .cycle _ _ :: _, h => List.mem_cons.2 (.inl (by simpa using h))
  | .query _ :: _, h => by
    rw [presented_query, List.mem_cons] at h
    exact List.mem_cons.2 (h.imp_right mem_of_mem_presented)

theorem mem_of_mem_linesAfter : ∀ {ls : List Line}, l ∈ linesAfter ls → l ∈ ls
  | .cycle _ _ :: _, h => List.mem_cons_of_mem _ h
  | .query _ :: _, h => List.mem_cons_of_mem _ (mem_of_mem_linesAfter h)

end

/-- A list of lines that all fit the ports is run to any length. -/
theorem runsSafely_of_presentable (n : Nat) {s : State} (hfits : ∀ l ∈ s.stim, presentable s.cfg l = true) :
    RunsSafely n s := by
  induction n generalizing s with
  | zero => exact ⟨s, run_zero s⟩
  | succ n ih =>
    have hstep := step_of_presented s.stim rfl fun l hl => hfits l (mem_of_mem_presented hl)
    rw [RunsSafely, run_succ n hstep]
    exact ih fun l hl => hfits l (mem_of_mem_linesAfter hl)

/-- Settles O53: every operation has its registers to answer with, and a step on lines that fit the ports leaves
such lines. -/
theorem noOperationRaisesAnException : Obligations.NoOperationRaisesAnException :=
  ⟨fun i s => ⟨_, exec_eq i s⟩, fun _ hfits n => runsSafely_of_presentable n hfits⟩

/-- A run of the cycles of O56 from a disabled block; with no cycle at all `done` stays as it was. -/
theorem run_of_disabled (lines rest : List Line) {s : State} (hoff : s.regs.procEn = false)
    (hs : s.stim = lines ++ rest)
    (hlines : ∀ l ∈ lines, ∃ cmd t, l = .cycle cmd t ∧ cmd ∈ [0b00000, 0b00001, 0b00100, 0b00101] ∧
      t < s.cfg.tsMod) :
    Host.Core.run Sys2Proof.core lines.length s =
      .next { s with regs := { s.regs with done := lines.isEmpty && s.regs.done }, stim := rest } := by
  induction lines generalizing s with
  | nil =>
    rw [List.nil_append] at hs
    subst hs
    rfl
  | cons l lines ih =>
    obtain ⟨⟨cmd, t, rfl, hcmd, ht⟩, hlater⟩ := List.forall_mem_cons.1 hlines
    have hlow : cmd < 32 := by fin_cases hcmd <;> decide
    have hstep := step_of_cycle hs hlow ht
    rw [cycleRegs_of_disabled hoff hcmd] at hstep
    rw [List.length_cons, run_succ _ hstep]
    refine (ih (s := { s with regs := s.regs.lowerDone, stim := lines ++ rest }) hoff rfl hlater).trans ?_
    simp [Regs.lowerDone]

/-- Settles O56: by induction on the cycles, each of which only lowers `done`. -/
theorem disabledBlockHolds : Obligations.DisabledBlockHolds := by
  intro lines rest s hne hoff hs hlines
  rw [run_of_disabled lines rest hoff hs hlines, List.isEmpty_eq_false_iff.2 hne, Bool.false_and]

end Sys2Proof.Machine
end

section
/-! EDGE in every state (41_edge.md R57), the two completions (R61, R62), and a second EDGE at the same time. -/

namespace Sys2Proof.Machine

/-- The first command of a vector with bit 0 and without bit 4 is its EDGE (30_encoding.md R42, R44). -/
theorem decodeCmd_of_odd {cmd : Nat} (hcmd : cmd < 16) (hodd : cmd % 2 = 1) (t : Nat) :
    ∃ ops, decodeCmd (BitVec.ofNat 5 cmd) t = .edge t :: ops := by
  rw [decodeCmd_eq_selectedCommands hcmd (by omega), selectedCommands, if_pos (testBit_zero_iff.2 hodd)]
  exact ⟨_, rfl⟩

/-- Settles O7: `Regs.edge` is the pseudocode with its emission, and EDGE stands first in its bundle. -/
theorem edgeFollowsItsPseudocode : Obligations.EdgeFollowsItsPseudocode := by
  intro s t ht
  refine ⟨by rw [exec_eq, regsAfter, Regs.edge_eq_pseudo ht], fun cmd hcmd hodd => ?_⟩
  obtain ⟨ops, hops⟩ := decodeCmd_of_odd hcmd hodd t
  exact ⟨ops, by rw [decodeLine_cycle (by omega) ht, hops]⟩

section
variable {c : Config} {t : Nat} {r : Regs}

/-- 41_edge.md R61: the 32nd bit writes every register. -/
theorem Regs.edge_of_lastBit {b : Bool} (hen : r.procEn = true) (ht : t < c.tsMod)
    (hclass : classify c (interval c t r.lastEdge) = if b then .one else .zero) (h31 : r.bitCount = 31#6) :
    r.edge c t = ⟨false, (r.accPacket <<< 1) ||| zextBit b, 0#6, (r.accPacket <<< 1) ||| zextBit b, t, true,
      (r.accPacket <<< 1) ||| zextBit b⟩ := by
  rw [Regs.edge_of_enabled hen ht, hclass, Regs.applyClass_data, Regs.dataBit_of_eq h31]
  rfl

/-- 41_edge.md R60: below the 32nd bit the bit is shifted in and counted. -/
theorem Regs.edge_of_earlierBit {b : Bool} (hen : r.procEn = true) (ht : t < c.tsMod)
    (hclass : classify c (interval c t r.lastEdge) = if b then .one else .zero) (h31 : r.bitCount ≠ 31#6) :
    r.edge c t = (r.shiftIn b).countBit.recordEdge t := by
  rw [Regs.edge_of_enabled hen ht, hclass, Regs.applyClass_data, Regs.dataBit_of_ne h31]

/-- 41_edge.md R62. -/
theorem Regs.edge_of_repeatCode (hen : r.procEn = true) (ht : t < c.tsMod)
    (hclass : classify c (interval c t r.lastEdge) = .repeatCode) :
    r.edge c t = r.repeatCompletion.recordEdge t := by
  rw [Regs.edge_of_enabled hen ht, hclass, Regs.applyClass]

end

/-- A step on a vector with an EDGE: the flag falls, the EDGE applies, and the controls follow. -/
theorem step_of_edge {s : State} {cmd t : Nat} {rest : List Line} (hs : s.stim = .cycle cmd t :: rest)
    (hcmd : cmd < 16) (hodd : cmd % 2 = 1) (ht : t < s.cfg.tsMod) :
    step s = .next { s with regs := controlsAfter cmd (s.regs.lowerDone.edge s.cfg t), stim := rest } := by
  rw [step_of_cycle hs (by omega) ht, cycleRegs_of_edge hcmd hodd]

/-- Settles O11: the 32nd bit writes every register, and the controls of its bundle leave what the statement names. -/
theorem thirtySecondBitCompletes : Obligations.ThirtySecondBitCompletes := by
  intro s t b ht hen hclass h31
  refine ⟨_, toNat_shift_or_zextBit s.regs.accPacket b, ?_, fun rest cmd hcmd hodd hs => ?_⟩
  · rw [exec_eq, regsAfter, Regs.edge_of_lastBit hen ht hclass h31]
  · refine ⟨_, step_of_edge hs hcmd hodd ht, ?_⟩
    rw [Regs.edge_of_lastBit (r := s.regs.lowerDone) hen ht hclass h31]
    simp [controlsAfter_bitCount]

/-- Settles O12: a repeat code emits the packet as it stands, and the controls of its bundle leave what the
statement names. -/
theorem repeatForwardsTheCurrentPacket : Obligations.RepeatForwardsTheCurrentPacket := by
  intro s t ht hen hclass
  refine ⟨?_, fun rest cmd hcmd hodd hs => ?_⟩
  · rw [exec_eq, regsAfter, Regs.edge_of_repeatCode hen ht hclass]
    rfl
  · refine ⟨_, step_of_edge hs hcmd hodd ht, ?_⟩
    rw [Regs.edge_of_repeatCode (r := s.regs.lowerDone) hen ht hclass]
    simp [controlsAfter_bitCount, Regs.repeatCompletion]

/-- Below 100 percent deviation the zero interval is in no window (40_classifier.md R55). -/
theorem classify_zero_interval {c : Config} (hdev : c.devPct < 100) (h1 : 0 < c.nomOne) (h0 : 0 < c.nomZero)
    (hr : 0 < c.nomRepeat) : classify c 0 = .unclassified := by
  rw [classify_of_not_inWin_data (inWin_zero_interval hdev h1) (inWin_zero_interval hdev h0),
    inWin_zero_interval hdev hr]
  rfl

/-- Settles O15: the zero interval is unclassified, so the EDGE only records the time that stands there already. -/
theorem duplicateEdgeHasNoEffect : Obligations.DuplicateEdgeHasNoEffect := by
  intro s hdev h1 h0 hr hlast
  have hsame : s.regs.edge s.cfg s.regs.lastEdge = s.regs := by
    cases hen : s.regs.procEn with
    | false => exact Regs.edge_of_disabled hen
    | true =>
      have hclass : classify s.cfg (interval s.cfg s.regs.lastEdge s.regs.lastEdge) = .unclassified := by
        rw [interval_self, classify_zero_interval hdev h1 h0 hr]
      rw [Regs.edge_of_unclassified hen hlast hclass]
      rfl
  rw [exec_eq, regsAfter, hsame]

end Sys2Proof.Machine
end

section
/-! Runs of data bits (41_edge.md R66) and the 32 edges of FRAME (30_encoding.md R47). -/

namespace Sys2Proof.Machine

/-- A run whose first part answers goes on from there. -/
theorem run_add (m n : Nat) {s s' : State} (h : Host.Core.run Sys2Proof.core m s = .next s') :
    Host.Core.run Sys2Proof.core (m + n) s = Host.Core.run Sys2Proof.core n s' := by
  induction m generalizing s with
  | zero =>
    rw [run_zero] at h
    rw [Nat.zero_add, Host.Outcome.next.inj h]
  | succ m ih =>
    cases hstep : step s with
    | next s1 =>
      rw [run_succ m hstep] at h
      rw [Nat.add_right_comm, run_succ (m + n) hstep, ih h]
    | fault f => cases f
    | refused e =>
      have hcore : Sys2Proof.core.step s = .refused e := hstep
      simp [Host.Core.run, hcore] at h

/-- A nominal is in its own window. -/
theorem inWin_self (c : Config) (nom : Nat) : inWin c nom nom = true := by
  have hdev : 0 ≤ (nom : Int) * c.devPct := by positivity
  rw [inWin_iff, mul_sub, mul_add]
  omega

/-- The time of the edge that ends the bit `b`, one nominal after an edge at `T` (30_encoding.md R47: BIT0, BIT1). -/
def bitTime (c : Config) (T : Nat) (b : Bool) : Nat := (T + if b then c.nomOne else c.nomZero) % c.tsMod

theorem bitTime_lt (c : Config) (T : Nat) (b : Bool) : bitTime c T b < c.tsMod := Nat.mod_lt _ (tsMod_pos c)

/-- The edge times of a row of bits, one after the other. -/
theorem bitTimes_cons (c : Config) (T : Nat) (b : Bool) (bs : List Bool) :
    bitTimes c T (b :: bs) = bitTime c T b :: bitTimes c (bitTime c T b) bs := rfl

/-- An edge one nominal after the last one is the bit of that nominal. -/
theorem classify_bit {c : Config} (h1 : c.nomOne < c.tsMod) (h0 : c.nomZero < c.tsMod)
    (hzero : classify c c.nomZero = .zero) (b : Bool) (last : Nat) :
    classify c (interval c (bitTime c last b) last) = if b then .one else .zero := by
  cases b with
  | false => simpa [bitTime, interval_after c last h0] using hzero
  | true => simpa [bitTime, interval_after c last h1] using classify_of_inWin_one (inWin_self c c.nomOne)

/-- The shift of 41_edge.md R60 on a packet given as a number. -/
theorem shift_ofNat (x : Nat) (b : Bool) :
    (BitVec.ofNat 32 x <<< 1) ||| zextBit b = BitVec.ofNat 32 (2 * x + b.toNat) := by
  apply BitVec.eq_of_toNat_eq
  rw [toNat_shift_or_zextBit, BitVec.toNat_ofNat, BitVec.toNat_ofNat]
  omega

/-- Bits appended to a number, modulo 2^32, are bits shifted into the packet. -/
theorem ofNat_foldl_bits (bs : List Bool) (x : Nat) :
    BitVec.ofNat 32 (bs.foldl (fun a b => 2 * a + b.toNat) x) =
      bs.foldl (fun (p : Packet) b => (p <<< 1) ||| zextBit b) (BitVec.ofNat 32 x) :=
  (List.foldl_hom (BitVec.ofNat 32) fun x b => shift_ofNat x b).symm

/-- The registers after a run of data bits that does not complete a packet, as 41_edge.md R66 has them. -/
def Regs.afterBits (c : Config) (r : Regs) (bs : List Bool) : Regs :=
  { r with
    accPacket := BitVec.ofNat 32 (bs.foldl (fun a b => 2 * a + b.toNat) r.accPacket.toNat)
    bitCount := BitVec.ofNat 6 (r.bitCount.toNat + bs.length)
    lastEdge := (bitTimes c r.lastEdge bs).getLastD r.lastEdge
    done := bs.isEmpty && r.done }

section
variable {c : Config} {r : Regs}

theorem Regs.afterBits_nil : r.afterBits c [] = r := by
  simp [Regs.afterBits, bitTimes]

/-- The first bit of a run, and then the others. -/
theorem Regs.afterBits_cons (b : Bool) (bs : List Bool) : r.afterBits c (b :: bs) =
    ((r.lowerDone.shiftIn b).countBit.recordEdge (bitTime c r.lastEdge b)).afterBits c bs := by
  have hcount : BitVec.ofNat 6 (r.bitCount.toNat + (b :: bs).length) =
      BitVec.ofNat 6 ((r.bitCount + 1#6).toNat + bs.length) := by
    rw [List.length_cons]
    bv_omega
  simp only [Regs.afterBits, hcount, bitTimes_cons, List.getLastD_cons, ofNat_foldl_bits, BitVec.ofNat_toNat]
  simp

end

/-- The lines of a row of bits, one EDGE alone in each cycle (30_encoding.md R47, R48). -/
theorem bitLines_cons (c : Config) (T : Nat) (b : Bool) (bs : List Bool) :
    bitLines c T (b :: bs) = .cycle 1 (bitTime c T b) :: bitLines c (bitTime c T b) bs := by
  simp [bitLines, bitTimes_cons, encode_edge]

/-- A run of data bits that keeps the count below 32; with no bit at all nothing changes. -/
theorem run_bitLines (bs : List Bool) (rest : List Line) {s : State} (hen : s.regs.procEn = true)
    (hcount : s.regs.bitCount.toNat + bs.length ≤ 31) (h1 : s.cfg.nomOne < s.cfg.tsMod)
    (h0 : s.cfg.nomZero < s.cfg.tsMod) (hzero : classify s.cfg s.cfg.nomZero = .zero)
    (hs : s.stim = bitLines s.cfg s.regs.lastEdge bs ++ rest) :
    Host.Core.run Sys2Proof.core bs.length s =
      .next { s with regs := s.regs.afterBits s.cfg bs, stim := rest } := by
  induction bs generalizing s with
  | nil =>
    have hrest : s.stim = rest := hs
    rw [Regs.afterBits_nil, ← hrest]
    rfl
  | cons b bs ih =>
    rw [bitLines_cons, List.cons_append] at hs
    rw [List.length_cons] at hcount
    have ht := bitTime_lt s.cfg s.regs.lastEdge b
    have h31 : s.regs.lowerDone.bitCount ≠ 31#6 := by
      intro h31
      have htoNat : s.regs.bitCount.toNat = 31 := congrArg BitVec.toNat h31
      omega
    have hstep := step_of_lone_edge ht hs
    have hclass := classify_bit h1 h0 hzero b s.regs.lastEdge
    rw [Regs.edge_of_earlierBit (r := s.regs.lowerDone) hen ht hclass h31] at hstep
    rw [List.length_cons, run_succ _ hstep, Regs.afterBits_cons]
    refine ih (s := { s with
      regs := (s.regs.lowerDone.shiftIn b).countBit.recordEdge (bitTime s.cfg s.regs.lastEdge b)
      stim := _ }) hen ?_ h1 h0 hzero rfl
    show (s.regs.bitCount + 1#6).toNat + bs.length ≤ 31
    bv_omega

/-- Settles O57: by induction on the bits, each of which shifts in and counts. -/
theorem newBitsShiftInOverTheOld : Obligations.NewBitsShiftInOverTheOld := by
  intro s bs rest hne hen hcount h1 h0 hzero hs
  rw [run_bitLines bs rest hen hcount h1 h0 hzero hs, Regs.afterBits, List.isEmpty_eq_false_iff.2 hne, Bool.false_and]

section
variable (c : Config)

/-- One more bit takes its time from the last one before it. -/
theorem bitTimes_append_singleton (T : Nat) (bs : List Bool) (b : Bool) : bitTimes c T (bs ++ [b]) =
    bitTimes c T bs ++ [bitTime c ((bitTimes c T bs).getLastD T) b] := by
  induction bs generalizing T with
  | nil => rfl
  | cons b' bs ih => simp only [List.cons_append, bitTimes_cons, ih, List.getLastD_cons]

theorem bitLines_append_singleton (T : Nat) (bs : List Bool) (b : Bool) : bitLines c T (bs ++ [b]) =
    bitLines c T bs ++ [.cycle 1 (bitTime c ((bitTimes c T bs).getLastD T) b)] := by
  rw [bitLines, bitTimes_append_singleton, List.map_append, ← bitLines, List.map_singleton, encode_edge]

end

/-- The first 31 bits of a frame (30_encoding.md R47). -/
def frameInit (p : Packet) : List Bool := (List.range 31).map (fun k => p.getLsbD (31 - k))

theorem frameBits_eq (p : Packet) : frameBits p = frameInit p ++ [p.getLsbD 0] := by
  rw [frameBits, List.range_succ, List.map_append]
  rfl

/-- The first `k` bits of a frame, appended to a number, are the top `k` bits of the packet. -/
theorem foldl_frame_bits (p : Packet) (x : Nat) {k : Nat} (hk : k ≤ 32) :
    ((List.range k).map (fun i => p.getLsbD (31 - i))).foldl (fun a b => 2 * a + b.toNat) x =
      x * 2 ^ k + p.toNat / 2 ^ (32 - k) := by
  induction k with
  | zero => simp [Nat.div_eq_of_lt p.isLt]
  | succ k ih =>
    have hhalf : p.toNat / 2 ^ (32 - k) = p.toNat / 2 ^ (31 - k) / 2 := by
      rw [Nat.div_div_eq_div_mul, ← pow_succ]
      congr 2
      omega
    have hbit : (p.getLsbD (31 - k)).toNat = p.toNat / 2 ^ (31 - k) % 2 := Nat.toNat_testBit _ _
    have hexp : 32 - (k + 1) = 31 - k := by omega
    rw [List.range_succ, List.map_append, List.foldl_append, ih (by omega), List.map_singleton, List.foldl_cons,
      List.foldl_nil, hbit, hhalf, hexp, pow_succ, ← mul_assoc]
    omega

/-- The 32 bits of a frame leave nothing of what the packet held before (20_memory.md R28). -/
theorem ofNat_frameBits (p : Packet) (x : Nat) :
    BitVec.ofNat 32 ((frameBits p).foldl (fun a b => 2 * a + b.toNat) x) = p := by
  apply BitVec.eq_of_toNat_eq
  rw [frameBits, foldl_frame_bits p x le_rfl, BitVec.toNat_ofNat]
  have hp := p.isLt
  omega

/-- The last bit of a frame makes the packet whole. -/
theorem shift_afterBits_frameInit (c : Config) (r : Regs) (p : Packet) :
    ((r.afterBits c (frameInit p)).accPacket <<< 1) ||| zextBit (p.getLsbD 0) = p := by
  have hwhole := ofNat_frameBits p r.accPacket.toNat
  rw [frameBits_eq, List.foldl_append] at hwhole
  rw [Regs.afterBits, shift_ofNat]
  exact hwhole

/-- The cycle of the 32nd bit. -/
theorem step_of_lastBit {c : Config} {r : Regs} (b : Bool) (rest : List Line) (hen : r.procEn = true)
    (h31 : r.bitCount = 31#6) (h1 : c.nomOne < c.tsMod) (h0 : c.nomZero < c.tsMod)
    (hzero : classify c c.nomZero = .zero) :
    step ⟨c, r, .cycle 1 (bitTime c r.lastEdge b) :: rest⟩ =
      .next ⟨c, ⟨false, (r.accPacket <<< 1) ||| zextBit b, 0#6, (r.accPacket <<< 1) ||| zextBit b,
        bitTime c r.lastEdge b, true, (r.accPacket <<< 1) ||| zextBit b⟩, rest⟩ := by
  have ht := bitTime_lt c r.lastEdge b
  rw [step_of_lone_edge ht rfl, Regs.edge_of_lastBit (r := r.lowerDone) hen ht
    (classify_bit h1 h0 hzero b r.lastEdge) h31]
  rfl

/-- Settles O58: 31 bits shift in and count to 31, and the 32nd completes. -/
theorem frameFillsThePacket : Obligations.FrameFillsThePacket := by
  intro s p rest hen hcount h1 h0 hzero hs
  have hlength : (frameInit p).length = 31 := by simp [frameInit]
  rw [frameLines, frameBits_eq, bitLines_append_singleton, List.append_assoc] at hs
  have hfirst := run_bitLines (frameInit p) _ hen (by rw [hcount, hlength]; decide) h1 h0 hzero hs
  rw [hlength] at hfirst
  have h31 : (s.regs.afterBits s.cfg (frameInit p)).bitCount = 31#6 := by
    rw [Regs.afterBits, hcount, hlength]
    rfl
  have hlast := step_of_lastBit (r := s.regs.afterBits s.cfg (frameInit p)) (p.getLsbD 0) rest hen h31 h1 h0 hzero
  rw [shift_afterBits_frameInit] at hlast
  refine (run_add 31 1 hfirst).trans ((run_succ 0 hlast).trans ?_)
  rw [run_zero, frameBits_eq, bitTimes_append_singleton, List.getLastD_concat]
  rfl

end Sys2Proof.Machine
end

section
/-! The classifier at given parameters (40_classifier.md R51 to R55) and the width of the clock (00_scope.md R7). -/

namespace Sys2Proof.Machine

section
variable {c : Config} {iv nom : Nat}

/-- The upper bound of a window, as a whole number (40_classifier.md R50). -/
theorem inWin_le (h : inWin c iv nom = true) : iv ≤ nom * (100 + c.devPct) / 100 := by
  have hupper : 100 * iv ≤ nom * (100 + c.devPct) := by exact_mod_cast (inWin_iff.1 h).2
  omega

/-- From 100 percent deviation on every window holds the zero interval (40_classifier.md R55). -/
theorem inWin_zero_interval_of_le (hdev : 100 ≤ c.devPct) (nom : Nat) : inWin c 0 nom = true := by
  have hlower : (nom : Int) * (100 - (c.devPct : Int)) ≤ 0 :=
    mul_nonpos_of_nonneg_of_nonpos (by omega) (by omega)
  have hupper : (0 : Int) ≤ nom * (100 + (c.devPct : Int)) := by positivity
  exact inWin_iff.2 ⟨by simpa using hlower, by simpa using hupper⟩

end

/-- At the default deviation a window runs from 90 to 110 percent of its nominal, rounded inwards. -/
theorem inWin_default_iff {iv nom lo hi : Nat} (hlo : 90 * nom ≤ 100 * lo ∧ 100 * lo < 90 * nom + 100)
    (hhi : 100 * hi ≤ 110 * nom ∧ 110 * nom < 100 * hi + 100) :
    inWin Config.default iv nom = true ↔ lo ≤ iv ∧ iv ≤ hi := by
  have hdev : ((Config.default.devPct : Nat) : Int) = 10 := rfl
  rw [inWin_iff, hdev]
  omega

/-- Settles O18: at the defaults each window is two comparisons of numbers. -/
theorem defaultWindows : Obligations.DefaultWindows := by
  intro iv
  have hone : inWin Config.default iv Config.default.nomOne = true ↔ 2025 ≤ iv ∧ iv ≤ 2475 :=
    inWin_default_iff (by decide) (by decide)
  have hzero : inWin Config.default iv Config.default.nomZero = true ↔ 1013 ≤ iv ∧ iv ≤ 1237 :=
    inWin_default_iff (by decide) (by decide)
  have hrepeat : inWin Config.default iv Config.default.nomRepeat = true ↔ 90000 ≤ iv ∧ iv ≤ 110000 :=
    inWin_default_iff (by decide) (by decide)
  simp only [classify, hone, hzero, hrepeat]

/-- Settles O21: below 100 percent no window holds the interval 0, from there on the first one does. -/
theorem zeroIntervalClass : Obligations.ZeroIntervalClass := by
  intro c h1 h0 hr
  exact ⟨fun hdev => classify_zero_interval hdev h1 h0 hr,
    fun hdev => classify_of_inWin_one (inWin_zero_interval_of_le hdev c.nomOne)⟩

/-- Settles O22: the top of a window grows with its nominal, and the top of the REPEAT window fits the clock. -/
theorem supportedWidthHoldsEveryWindow : Obligations.SupportedWidthHoldsEveryWindow := by
  intro c iv nom hsupported hnom hwin
  calc iv ≤ nom * (100 + c.devPct) / 100 := inWin_le hwin
    _ ≤ c.nomRepeat * (100 + c.devPct) / 100 := Nat.div_le_div_right (Nat.mul_le_mul_right _ hnom)
    _ < c.tsMod := by simpa [Config.supported] using hsupported

/-- Settles O17: the scaled bounds of R50 and the truncated ones of R51 let the same whole numbers in. -/
theorem windowHasIntegerBounds : Obligations.WindowHasIntegerBounds := by
  intro c iv nom hdev
  have hsmall : nom * c.devPct ≤ nom * 100 := Nat.mul_le_mul_left nom hdev
  rw [inWin_iff, mul_sub, mul_add, winLo, winHi, winDev]
  omega

/-- Settles O20: at these nominals every window bound is linear in the deviation. -/
theorem overlapThresholds : Obligations.OverlapThresholds := by
  intro c iv h1 h0 hr
  simp only [inWin_iff, h1, h0, hr]
  omega

end Sys2Proof.Machine
end

section
/-! The control commands and RESET (42_control.md, 70_reset_and_hazards.md R97) as whole states, and what is read
after them. -/

namespace Sys2Proof.Machine

/-- Settles O1: the operation writes every register, and only registers. -/
theorem resetGivesTheRuleValues : Obligations.ResetGivesTheRuleValues :=
  ⟨rfl, fun s => exec_eq .reset s⟩

/-- The state an operation answers. -/
theorem eq_of_exec {i : Instr} {s t : State} (h : exec i s = .next t) :
    t = { s with regs := regsAfter s.cfg i s.regs } := by
  rw [exec_eq] at h
  exact (Host.Outcome.next.inj h).symm

/-- Writing to `proc_en` what it holds changes nothing. -/
theorem setProcEn_self {r : Regs} {en : Bool} (h : r.procEn = en) : r.setProcEn en = r := by
  subst h
  rfl

/-- Settles O3: ENABLE is one write to `proc_en`, which the attach output shows. -/
theorem enableSetsOnlyProcEn : Obligations.EnableSetsOnlyProcEn := by
  intro s
  refine ⟨exec_eq .enable s, fun hen => ?_, fun t h => ?_⟩
  · rw [exec_eq, regsAfter, setProcEn_self hen]
  · obtain rfl := eq_of_exec h
    exact ⟨rfl, fun _ => rfl⟩

/-- Settles O4: DISABLE is one write to `proc_en`, which a second one finds done. -/
theorem disableSetsOnlyProcEn : Obligations.DisableSetsOnlyProcEn := by
  intro s
  refine ⟨exec_eq .disable s, fun t h => ?_⟩
  have hoff : t.regs.procEn = false := by
    rw [eq_of_exec h, regsAfter, Regs.setProcEn_procEn]
  exact ⟨by rw [exec_eq, regsAfter, setProcEn_self hoff], hoff, fun _ => hoff⟩

/-- Settles O5: after CLEAR the packet and the count read 0, and the bytes of the zero packet are no complements. -/
theorem clearEmptiesThePacket : Obligations.ClearEmptiesThePacket := by
  intro s
  refine ⟨exec_eq .clear s, fun t h => ?_⟩
  obtain rfl := eq_of_exec h
  have haddr : zextBit (addrValid 0#32) = 0#32 := by decide
  have hdata : zextBit (dataValid 0#32) = 0#32 := by decide
  exact ⟨rfl, rfl, haddr, hdata, rfl⟩

end Sys2Proof.Machine
end

section
/-! What the queries answer (43_queries.md) and what the ports show (10_state.md R26, 20_memory.md R29). -/

namespace Sys2Proof.Machine

/-- A comparison of two fields, read as a one-bit value. -/
theorem zextBit_beq {w : Nat} (a b : BitVec w) : zextBit (a == b) = if a = b then 1#32 else 0#32 := by
  rw [zextBit_eq_ite]
  simp only [beq_iff_eq]

/-- A query answers its own state, and the host reads a value. -/
theorem query_reads {i : Instr} {v : QData} {s : State} (hquery : queryCode i ≠ none) (hv : answer i s = some v) :
    exec i s = .next s ∧ answer i s = some v :=
  ⟨exec_query s hquery, hv⟩

/-- A field that a query zero-extends is read as its number. -/
theorem query_reads_field {i : Instr} {w n : Nat} {v : BitVec w} {s : State} (hw : w ≤ 32)
    (hquery : queryCode i ≠ none) (hv : answer i s = some (zext v)) (hn : v.toNat = n) :
    exec i s = .next s ∧ (answer i s).map BitVec.toNat = some n := by
  rw [hv, Option.map_some, toNat_zext hw, hn]
  exact ⟨exec_query s hquery, rfl⟩

/-- A bit that a query zero-extends is read as 1 or 0. -/
theorem query_reads_bit {i : Instr} {b : Bool} {s : State} (hquery : queryCode i ≠ none)
    (hv : answer i s = some (zextBit b)) :
    exec i s = .next s ∧ answer i s = some (if b then 1#32 else 0#32) := by
  rw [hv, zextBit_eq_ite]
  exact ⟨exec_query s hquery, rfl⟩

/-- Settles O23: each query answers its own state, and its value is a register, a field or a flag. -/
theorem queriesSelectAndRead : Obligations.QueriesSelectAndRead := by
  intro s low
  refine ⟨query_reads_bit (by decide) rfl, query_reads_bit (by decide) rfl, query_reads (by decide) rfl,
    query_reads_field (by decide) (by decide) rfl (toNat_byte0 _),
    query_reads_field (by decide) (by decide) rfl (toNat_upperHalf _),
    query_reads_field (by decide) (by decide) rfl (toNat_byte2 _),
    query_reads_field (by decide) (by decide) rfl (toNat_lowerHalf _), ?_, ?_,
    query_reads_field (by decide) (by decide) rfl rfl,
    query_reads (by decide) rfl, query_reads (by decide) rfl, query_reads_bit (by decide) rfl,
    query_reads (by decide) rfl, query_reads (by simp [queryCode]) rfl⟩
  · rw [← zextBit_beq]
    exact query_reads (by decide) rfl
  · rw [← zextBit_beq]
    exact query_reads (by decide) rfl

/-- Fields put together, as a number. -/
theorem toNat_append_eq_add {v w : Nat} (a : BitVec v) (b : BitVec w) :
    (a ++ b).toNat = a.toNat * 2 ^ w + b.toNat := by
  rw [BitVec.toNat_append, ← Nat.shiftLeft_add_eq_or_of_lt b.isLt, Nat.shiftLeft_eq]

/-- Settles O30: adjacent fields put together are the field that spans them. -/
theorem packetIsItsFourBytes : Obligations.PacketIsItsFourBytes := by
  intro p
  constructor
  all_goals
    apply BitVec.eq_of_toNat_eq
    have hp := p.isLt
  · simp only [toNat_append_eq_add, toNat_byte0, toNat_byte1, toNat_byte2, toNat_byte3]
    omega
  · simp only [toNat_append_eq_add, toNat_upperHalf, toNat_lowerHalf]
    omega

/-- Settles O31: no output port reads `last_edge`. -/
theorem timestampIsHidden : Obligations.TimestampIsHidden := by
  intro s q x
  rfl

end Sys2Proof.Machine
end

section
/-! Lines as they are written and as a step runs them (00_scope.md R11, 30_encoding.md R44, R48). -/

namespace Sys2Proof.Machine

/-- Settles O32: each line is looked up in the rows. -/
theorem writtenOutLinesDecode : Obligations.WrittenOutLinesDecode :=
  ⟨rfl, rfl, rfl, rfl, rfl, rfl, rfl, rfl, rfl⟩

/-- A cycle that decodes runs its commands after `done` has fallen. -/
theorem step_of_decoded_cycle {s : State} {cmd t : Nat} {ops : List Instr} {rest : List Line}
    (hs : s.stim = .cycle cmd t :: rest) (hdecode : decodeLine s.cfg (.cycle cmd t) = .ok ops) :
    step s = runOps ops { s with regs := s.regs.lowerDone, stim := rest } := by
  rw [step_cons_cycle hs, runLine]
  simp only [hdecode]
  rfl

/-- A bundle of one operation is that operation. -/
theorem runOps_singleton (i : Instr) (s : State) : runOps [i] s = exec i s := by
  simp only [runOps, exec_eq]

/-- A query that decodes fits the port, so it is one and changes nothing about the step behind it. -/
theorem step_of_decoded_query {s : State} {q : Nat} {i : Instr} {rest : List Line} (hs : s.stim = .query q :: rest)
    (hdecode : decodeLine s.cfg (.query q) = .ok [i]) :
    queryCode i = some q ∧ step s = step { s with stim := rest } := by
  obtain ⟨hq, hops⟩ := decodeLine_query_ok hdecode
  obtain ⟨j, hj, hcode⟩ := decodeQuery_eq hq
  obtain rfl : i = j := List.singleton_inj.1 (hops.trans hj)
  exact ⟨hcode, step_cons_query hs hq⟩

/-- Settles O41: a cycle is run by `runOps` on the state with `done` lowered, a query in front answers that state. -/
theorem stepRunsTheDecodedLine : Obligations.StepRunsTheDecodedLine := by
  intro s rest
  refine ⟨fun cmd t i hs hdecode => ?_, fun q i hs hdecode => ?_, fun cmd t i ops hs hdecode => ?_⟩
  · rw [step_of_decoded_cycle hs hdecode, runOps_singleton, Regs.lowerDone]
  · obtain ⟨hcode, hstep⟩ := step_of_decoded_query hs hdecode
    exact ⟨_, exec_query _ (by simp [hcode]), hstep⟩
  · refine ⟨_, exec_eq i _, ?_⟩
    rw [step_of_decoded_cycle hs hdecode, runOps, exec_eq]
    rfl

/-- A vector decodes to commands, none of which is a query. -/
theorem queryCode_of_decoded_cycle {c : Config} {cmd t : Nat} {ops : List Instr}
    (hdecode : decodeLine c (.cycle cmd t) = .ok ops) : ∀ i ∈ ops, queryCode i = none := by
  obtain ⟨hcmd, ht, -⟩ := decodeLine_cycle_ok hdecode
  obtain ⟨ops', hops', -, -, -, -, -, -, hquery, -⟩ := vectorsSelectTheirRows c cmd t hcmd ht
  obtain rfl : ops = ops' := Except.ok.inj (hdecode.symm.trans hops')
  exact hquery

/-- Settles O42: the presented line stands first, and whether it is a cycle or a query is what the instruction is. -/
theorem presentedWordRunsNext : Obligations.PresentedWordRunsNext := by
  intro s nbits w i hdecode
  have hstim := s.withFetchWord_stim nbits w
  cases hline : tableLine nbits w with
  | cycle cmd t =>
    rw [hline] at hdecode hstim
    have hcode := queryCode_of_decoded_cycle hdecode i List.mem_cons_self
    refine ⟨fun _ => ?_, fun hquery => absurd hcode hquery⟩
    rw [step_of_decoded_cycle hstim hdecode, runOps_singleton]
    rfl
  | query q =>
    rw [hline] at hdecode hstim
    obtain ⟨hcode, hstep⟩ := step_of_decoded_query hstim hdecode
    refine ⟨fun hnone => ?_, fun hquery => ⟨s, exec_query s hquery, hstep⟩⟩
    simp [hcode] at hnone

/-- Settles O43: the idle cycle is the vector 0. -/
theorem idleCycleOnlyLowersDone : Obligations.IdleCycleOnlyLowersDone := by
  intro s hs
  rw [step_of_presented [] hs (by simp), cycleInput_nil, cycleRegs_zero, linesAfter_nil, ← hs, Regs.lowerDone]

end Sys2Proof.Machine
end
